-- ==== Sys2Proof/Word.lean ====
section
/-! DEFINITION. The widths of the spec's values: the bytes of a request and of a line register, the 32-bit
status register, and the 64-bit operands and data of a request (spec 00_scope.md R5, R6, R7). -/

namespace Sys2Proof

/-- One byte: a line register (R14) or one byte of a packed request (R42). -/
abbrev Byte := BitVec 8

/-- A value of the 32-bit status register (R12). -/
abbrev StatusWord := BitVec 32

/-- A 64-bit operand or datum: an MMIO offset, value or result, a line index, a line count (R6, R41). -/
abbrev Word := BitVec 64

end Sys2Proof
end

