-- ==== Sys2Proof/Machine/Flags.lean ====
section
/-! DEFINITION. The bits of the registers that have a name (spec 10_state.md R12, R15) and the write of one bit
(spec 00_scope.md R8). -/

namespace Sys2Proof.Machine

/-- The position of ACTIVE in a line register (R15). -/
def activePos : Nat := 0

/-- The position of ENABLED in a line register (R15). -/
def enabledPos : Nat := 7

/-- GLOBAL_ENABLED: bit 0 of the status register (R12). -/
def globalEnabled (status : StatusWord) : Bool := status.getLsbD 0

/-- ACTIVE: bit 0 of a line register (R15). -/
def active (b : Byte) : Bool := b.getLsbD activePos

/-- ENABLED: bit 7 of a line register (R15). -/
def enabled (b : Byte) : Bool := b.getLsbD enabledPos

/-- The reserved bits 6:1 of a line register (R15). -/
def reservedBits (b : Byte) : BitVec 6 := b.extractLsb' 1 6

/-- Whether a line contributes to the output: ACTIVE and ENABLED (R55). -/
def contributes (b : Byte) : Bool := active b && enabled b

/-- `line[i][pos] <- x` on one register: bit `pos` becomes `x`, the other bits stay (R8). -/
def setBit (pos : Nat) (x : Bool) (b : Byte) : Byte :=
  if x then b ||| (1#8 <<< pos) else b &&& ~~~(1#8 <<< pos)

end Sys2Proof.Machine
end

