-- ==== Sys2Proof/Config.lean ====
section
/-! DEFINITION. What an implementation fixes (spec 00_scope.md R5): the default number of lines, the bound on
it, and the byte order of the bus that carries MMIO accesses to the block. -/

namespace Sys2Proof.Config

/-- The default of the parameter NUM_LINES (R5, D16). -/
def defaultNumLines : Nat := 64

/-- The number of MMIO offsets that 64 bits can name: NUM_LINES + 4 is at most this (R5, D5). -/
def offsetSpace : Nat := 2 ^ 64

/-- The values of the parameter BUS_BYTE_ORDER (R5, R29, D10). -/
inductive ByteOrder
  | little
  | big
  deriving DecidableEq, Repr

/-- The default of the parameter BUS_BYTE_ORDER (R5, D10). -/
def defaultBusOrder : ByteOrder := .little

end Sys2Proof.Config
end

