-- ==== Sys2Proof/Syntax.lean ====
section
/-! DEFINITION. The instruction set: one constructor for each row of spec/opcode_table.json, that is, for each
request form of the opcode map of spec 30_encoding.md. -/

namespace Sys2Proof

/-- A request with its target already chosen (R40, R41, R44). The access size is a plain number of bytes, so that
a size the block does not support can be written down and is refused (R43, R67). Offsets, line-signal indices
and line counts are unsigned 64-bit numbers; a management index is a signed one, held in two's complement. -/
inductive Instr
  /-- MMIO_READ_STATUS (R61): an MMIO read at offset 0. -/
  | mmioReadStatus (size : Nat)
  /-- MMIO_READ_LINE (R62): an MMIO read at an offset in [4, NUM_LINES + 4). -/
  | mmioReadLine (size : Nat) (offset : Word)
  /-- MMIO_READ_INVALID (R63): an MMIO read at any other offset. -/
  | mmioReadInvalid (size : Nat) (offset : Word)
  /-- MMIO_WRITE_STATUS (R64): an MMIO write at offset 0. -/
  | mmioWriteStatus (size : Nat) (value : Word)
  /-- MMIO_WRITE_LINE (R65): an MMIO write at an offset in [4, NUM_LINES + 4). -/
  | mmioWriteLine (size : Nat) (offset : Word) (value : Word)
  /-- MMIO_WRITE_INVALID (R66): an MMIO write at any other offset. -/
  | mmioWriteInvalid (size : Nat) (offset : Word) (value : Word)
  /-- LINE_RAISE (R69): a line-signal event with level 1. -/
  | lineRaise (i : Word)
  /-- LINE_LOWER (R70): a line-signal event with level 0. -/
  | lineLower (i : Word)
  /-- SET_LINE (R73). -/
  | setLine (i : Word)
  /-- CLEAR_LINE (R74). -/
  | clearLine (i : Word)
  /-- ENABLE_LINE (R75). -/
  | enableLine (i : Word)
  /-- DISABLE_LINE (R76). -/
  | disableLine (i : Word)
  /-- CREATE (R79). -/
  | create (n : Word)
  /-- DESTROY (R81). -/
  | destroy
  deriving DecidableEq, Repr

end Sys2Proof
end

