-- ==== Sys2Proof/Decode.lean ====
section
/-! DEFINITION. From the bytes of a packed request to an instruction and back (spec 30_encoding.md): the header byte
(R42, R43, R48), the operands as 8 little-endian bytes each (R42), the hardware's address decode (R44), and the
requests with their operands as plain numbers (R40, R41). The header and the packing are the spec's own encoding,
not the hardware's (D22); the address decode is the hardware's. -/

namespace Sys2Proof

/-! ### Bytes and words -/

/-- The word that a list of bytes composes, least significant byte first (R6, R42). -/
def wordOfBytes : List Byte → Word
  | [] => 0
  | b :: bs => b.setWidth 64 ||| (wordOfBytes bs <<< 8)

/-- The `k` low bytes of a word, least significant byte first (R6, R42). -/
def bytesOfWord : Nat → Word → List Byte
  | 0, _ => []
  | k + 1, w => w.setWidth 8 :: bytesOfWord k (w >>> 8)

/-- The `k` low bytes of a number, least significant byte first (the opcode table's numbering of bits). -/
def bytesOfNat : Nat → Nat → List Byte
  | 0, _ => []
  | k + 1, n => BitVec.ofNat 8 n :: bytesOfNat k (n / 256)

/-! ### Requests -/

/-- The kinds of a packed request (R42). -/
inductive Kind
  | mmioRead
  | mmioWrite
  | lineSignal
  | setLine
  | clearLine
  | enableLine
  | disableLine
  | create
  | destroy
  deriving DecidableEq, Repr

/-- An entry-point call with its operands (R40, R41). Sizes and levels are plain numbers, so that the ones the spec
refuses (R67, R72) can be written down. -/
inductive Request
  | mmioRead (offset : Word) (size : Nat)
  | mmioWrite (offset : Word) (size : Nat) (value : Word)
  | lineSignal (i : Word) (level : Int)
  | setLine (i : Word)
  | clearLine (i : Word)
  | enableLine (i : Word)
  | disableLine (i : Word)
  | create (n : Word)
  | destroy
  deriving DecidableEq, Repr

/-- Why bytes or a request stand for no instruction. -/
inductive DecodeError
  /-- The header byte is reserved (R48). -/
  | reservedEncoding (header : Byte)
  /-- There is no header byte, or fewer operand bytes than the header's kind takes (log 9). -/
  | truncated
  /-- The level of a line signal is neither 0 nor 1 (R72; log 16, log 28). -/
  | badLevel (level : Int)
  deriving DecidableEq, Repr

/-- What the MMIO decoder maps an access to (R44). -/
inductive Target
  | status
  | line (i : Nat)
  | invalid
  deriving DecidableEq, Repr

/-! ### The hardware's address decode -/

/-- `Decode(offset)` of R44, on unbounded integers (R9); the access size takes no part. -/
def mmioTarget (numLines : Nat) (offset : Word) : Target :=
  if offset.toNat = 0 then .status
  else if 4 ≤ offset.toNat ∧ offset.toNat < numLines + 4 then .line (offset.toNat - 4)
  else .invalid

/-! ### The header byte -/

/-- The kind that a `kind` field names; the other codes are reserved (R42). -/
def kindOfCode (code : BitVec 4) : Option Kind :=
  match code.toNat with
  | 0x1 => some .mmioRead
  | 0x2 => some .mmioWrite
  | 0x3 => some .lineSignal
  | 0x4 => some .setLine
  | 0x5 => some .clearLine
  | 0x6 => some .enableLine
  | 0x7 => some .disableLine
  | 0x8 => some .create
  | 0x9 => some .destroy
  | _ => none

/-- The `kind` field of a kind (R42). -/
def codeOfKind : Kind → BitVec 4
  | .mmioRead => 0x1
  | .mmioWrite => 0x2
  | .lineSignal => 0x3
  | .setLine => 0x4
  | .clearLine => 0x5
  | .enableLine => 0x6
  | .disableLine => 0x7
  | .create => 0x8
  | .destroy => 0x9

/-- The access size that a size code names: `size = 2 ^ sz` (R43). -/
def sizeOfCode (sz : BitVec 2) : Nat := 2 ^ sz.toNat

/-- The size code of an access size, if it has one (R43). -/
def codeOfSize (size : Nat) : Option (BitVec 2) :=
  match size with
  | 1 => some 0
  | 2 => some 1
  | 4 => some 2
  | 8 => some 3
  | _ => none

/-- The kinds whose header carries a size code (R42). -/
def isMmioKind (k : Kind) : Bool := k == .mmioRead || k == .mmioWrite

/-- The fields of a header byte: kind, level bit and size code; none where R48 refuses the byte. -/
def readHeader (b : Byte) : Option (Kind × Bool × BitVec 2) :=
  match kindOfCode (b.extractLsb' 4 4) with
  | none => none
  | some k =>
    if b.getLsbD 2 then none
    else if b.getLsbD 3 && k != .lineSignal then none
    else if b.extractLsb' 0 2 != 0 && !isMmioKind k then none
    else some (k, b.getLsbD 3, b.extractLsb' 0 2)

/-- A header byte from its fields, bit 2 zero (R42). -/
def makeHeader (k : Kind) (level : Bool) (sz : BitVec 2) : Byte :=
  codeOfKind k ++ BitVec.ofBool level ++ 0#1 ++ sz

/-! ### Operands -/

/-- The next 8-byte operand and the bytes after it, if all 8 are there (R42). -/
def takeOperand (bs : List Byte) : Option (Word × List Byte) :=
  if 8 ≤ bs.length then some (wordOfBytes (bs.take 8), bs.drop 8) else none

/-- A request of one operand (R42). -/
def unpackOne (mk : Word → Request) (bs : List Byte) : Except DecodeError (Request × List Byte) :=
  match takeOperand bs with
  | none => .error .truncated
  | some (a, rest) => .ok (mk a, rest)

/-- A request of two operands (R42). -/
def unpackTwo (mk : Word → Word → Request) (bs : List Byte) : Except DecodeError (Request × List Byte) :=
  match takeOperand bs with
  | none => .error .truncated
  | some (a, rest) => unpackOne (mk a) rest

/-- The request that a header's fields and the bytes after it stand for, and the bytes left over (R42). -/
def unpackOperands (k : Kind) (level : Bool) (sz : BitVec 2) (bs : List Byte) :
    Except DecodeError (Request × List Byte) :=
  match k with
  | .mmioRead => unpackOne (fun offset => .mmioRead offset (sizeOfCode sz)) bs
  | .mmioWrite => unpackTwo (fun offset value => .mmioWrite offset (sizeOfCode sz) value) bs
  | .lineSignal => unpackOne (fun i => .lineSignal i (if level then 1 else 0)) bs
  | .setLine => unpackOne .setLine bs
  | .clearLine => unpackOne .clearLine bs
  | .enableLine => unpackOne .enableLine bs
  | .disableLine => unpackOne .disableLine bs
  | .create => unpackOne .create bs
  | .destroy => .ok (.destroy, bs)

/-- The packed request at the head of a list of bytes, and the bytes left over (R42, R48). -/
def unpack (bs : List Byte) : Except DecodeError (Request × List Byte) :=
  match bs with
  | [] => .error .truncated
  | b :: rest =>
    match readHeader b with
    | none => .error (.reservedEncoding b)
    | some (k, level, sz) => unpackOperands k level sz rest

/-- The bytes of a request (R42); none for a size or a level that no header can carry. -/
def pack : Request → Option (List Byte)
  | .mmioRead offset size =>
    (codeOfSize size).map fun sz => makeHeader .mmioRead false sz :: bytesOfWord 8 offset
  | .mmioWrite offset size value =>
    (codeOfSize size).map fun sz =>
      makeHeader .mmioWrite false sz :: (bytesOfWord 8 offset ++ bytesOfWord 8 value)
  | .lineSignal i level =>
    if level = 0 then some (makeHeader .lineSignal false 0 :: bytesOfWord 8 i)
    else if level = 1 then some (makeHeader .lineSignal true 0 :: bytesOfWord 8 i)
    else none
  | .setLine i => some (makeHeader .setLine false 0 :: bytesOfWord 8 i)
  | .clearLine i => some (makeHeader .clearLine false 0 :: bytesOfWord 8 i)
  | .enableLine i => some (makeHeader .enableLine false 0 :: bytesOfWord 8 i)
  | .disableLine i => some (makeHeader .disableLine false 0 :: bytesOfWord 8 i)
  | .create n => some (makeHeader .create false 0 :: bytesOfWord 8 n)
  | .destroy => some [makeHeader .destroy false 0]

/-! ### From a request to its row of the opcode map, and back -/

/-- The instruction of a request: an MMIO access goes to the row of its target (R44), a line signal to the row of
its level (R72). A level other than 0 and 1 is refused here, whatever the index: that it comes before the index check
of R71 is the model's choice (DESIGN CHOICE, log 28). -/
def classify (numLines : Nat) : Request → Except DecodeError Instr
  | .mmioRead offset size =>
    match mmioTarget numLines offset with
    | .status => .ok (.mmioReadStatus size)
    | .line _ => .ok (.mmioReadLine size offset)
    | .invalid => .ok (.mmioReadInvalid size offset)
  | .mmioWrite offset size value =>
    match mmioTarget numLines offset with
    | .status => .ok (.mmioWriteStatus size value)
    | .line _ => .ok (.mmioWriteLine size offset value)
    | .invalid => .ok (.mmioWriteInvalid size offset value)
  | .lineSignal i level =>
    if level = 1 then .ok (.lineRaise i)
    else if level = 0 then .ok (.lineLower i)
    else .error (.badLevel level)
  | .setLine i => .ok (.setLine i)
  | .clearLine i => .ok (.clearLine i)
  | .enableLine i => .ok (.enableLine i)
  | .disableLine i => .ok (.disableLine i)
  | .create n => .ok (.create n)
  | .destroy => .ok .destroy

/-- The request that an instruction is (the opcode map of 30_encoding.md). -/
def requestOf : Instr → Request
  | .mmioReadStatus size => .mmioRead 0 size
  | .mmioReadLine size offset => .mmioRead offset size
  | .mmioReadInvalid size offset => .mmioRead offset size
  | .mmioWriteStatus size value => .mmioWrite 0 size value
  | .mmioWriteLine size offset value => .mmioWrite offset size value
  | .mmioWriteInvalid size offset value => .mmioWrite offset size value
  | .lineRaise i => .lineSignal i 1
  | .lineLower i => .lineSignal i 0
  | .setLine i => .setLine i
  | .clearLine i => .clearLine i
  | .enableLine i => .enableLine i
  | .disableLine i => .disableLine i
  | .create n => .create n
  | .destroy => .destroy

/-- The instruction at the head of a list of bytes, for a block of `numLines` lines, and the bytes left over. -/
def decode (numLines : Nat) (bs : List Byte) : Except DecodeError (Instr × List Byte) :=
  match unpack bs with
  | .error e => .error e
  | .ok (r, rest) =>
    match classify numLines r with
    | .error e => .error e
    | .ok i => .ok (i, rest)

/-- The bytes of an instruction (R42); none for a size that no header can carry. -/
def encode (i : Instr) : Option (List Byte) := pack (requestOf i)

/-- How many bytes the longest packed request has: MMIO_WRITE's header and two operands (R42). -/
def maxRequestBytes : Nat := 17

/-- The bytes of an opcode-table word of `nbits` bits: the word's bytes, first byte lowest, and zeros up to the
longest request. -/
def tableBytes (nbits w : Nat) : List Byte := bytesOfNat maxRequestBytes (w % 2 ^ nbits)

/-- The instruction that `decode` reads from an opcode-table word, for a block with the default number of lines.
The table's words hold the header alone, so an operand is 0 here (log 18). -/
def decodeTableWord (nbits w : Nat) : Option Instr :=
  match decode Config.defaultNumLines (tableBytes nbits w) with
  | .ok (i, _) => some i
  | .error _ => none

end Sys2Proof
end

