-- ==== Sys2Proof/Machine/Operands.lean ====
section
/-! DEFINITION. The operands of a request: access sizes and masks, the composition of a written value, the bytes of a
bus access, and the two kinds of line index (spec 00_scope.md R6, R8; 20_memory.md R28, R29; 30_encoding.md R46,
R47). -/

namespace Sys2Proof.Machine

/-- The access sizes the block supports: those with a size code (R28, R43). -/
def sizeSupported (size : Nat) : Bool := (codeOfSize size).isSome

/-- `mask(size)` of R8. -/
def mask (size : Nat) : Word := BitVec.ofNat 64 (2 ^ (8 * size) - 1)

/-- Byte `k` of a value (R6). -/
def byteAt (value : Word) (k : Nat) : Byte := value.extractLsb' (8 * k) 8

/-- `Compose(value, size)` of R46: the shifted OR of the `size` low bytes. -/
def compose (value : Word) (size : Nat) : Word :=
  (List.range size).foldl (fun v k => v ||| ((byteAt value k).setWidth 64 <<< (8 * k))) 0

/-- The index of a line-signal event, if it names a line (R47, R71): an unsigned number. -/
def lineIndex (numLines : Nat) (i : Word) : Option Nat :=
  if i.toNat < numLines then some i.toNat else none

/-- The index of a management request, if it names a line (R47, R77): a signed number (D17). -/
def managementIndex (numLines : Nat) (i : Word) : Option Nat :=
  if 0 ≤ i.toInt ∧ i.toInt < (numLines : Int) then some i.toInt.toNat else none

/-- Whether a construction with `n` lines is within the parameter's domain (R5, D5, D16). -/
def lineCountAllowed (n : Word) : Bool :=
  decide (1 ≤ n.toNat) && decide (n.toNat + 4 ≤ Config.offsetSpace)

/-- The bytes of a value of `size` bytes as they lie at rising bus addresses (R29, D10). -/
def busLanes (order : Config.ByteOrder) (size : Nat) (value : Word) : List Byte :=
  match order with
  | .little => bytesOfWord size value
  | .big => (bytesOfWord size value).reverse

/-- The value that bytes at rising bus addresses stand for (R29, D10). -/
def busValue (order : Config.ByteOrder) (lanes : List Byte) : Word :=
  match order with
  | .little => wordOfBytes lanes
  | .big => wordOfBytes lanes.reverse

end Sys2Proof.Machine
end

