-- ==== Sys2Proof/Machine/State.lean ====
section
/-! DEFINITION. The state of one controller (spec 10_state.md R11 to R24), why a step can stop, and the state after
reset (spec 70_reset_and_hazards.md R93). -/

namespace Sys2Proof.Machine

/-- The lifecycle of an instance (R20). -/
inductive Life
  | none
  | alive
  | destroyed
  deriving DecidableEq, Repr

/-- The faults that the block itself takes and keeps in `State.fault` (R21, R83). -/
inductive FaultReason
  /-- A line-signal event whose index is not below NUM_LINES (R71). -/
  | contractViolation (i : Nat)
  /-- A construction that failed (R80). -/
  | constructionFailure
  deriving DecidableEq, Repr

/-- What a completed request returns to its initiator (R41). -/
inductive Reply
  | nothing
  /-- The datum of an MMIO read. -/
  | data (value : Word)
  /-- The result `OK` of a management request. -/
  | ok
  /-- The result `INVALID_ARGUMENT` of a management request (R77). -/
  | invalidArgument
  deriving DecidableEq, Repr

/-- One arrival at the block from the outside, in the order the host makes them (R22, R35; log 7). -/
inductive Arrival
  /-- Packed requests, one after another (R42). -/
  | bytes (bs : List Byte)
  /-- One entry-point call with plain operands (R40, R41, R49). -/
  | call (r : Request)
  /-- One bus write: the byte at bus address `offset + j` is `lanes[j]` (R29, D10). -/
  | busWrite (offset : Word) (lanes : List Byte)
  /-- Two requests that overlap in time (R39). -/
  | overlap (first second : Request)
  deriving DecidableEq, Repr

/-- Why the machine stops. -/
inductive Fault
  /-- Raised by the Register Bank's primitives when they receive an index outside the line array (R54, I4). No
  request of a state whose array has NUM_LINES registers raises it. Safe: it proves nothing about such a state. -/
  | bankIndex (i : Nat)
  deriving DecidableEq, Repr

/-- Why a request is given no meaning (R10, R83). Each refusal is safe: nothing is proved of a refused request. -/
inductive Refusal
  /-- Raised by an arm of `exec` that has no meaning yet; no arm does. Safe. -/
  | notModelled (mnemonic : String)
  /-- Raised by every MMIO meaning for a size outside 1, 2, 4, 8 (R67). Safe. -/
  | unsupportedSize (size : Nat)
  /-- Raised by the fetch for a line signal whose level is neither 0 nor 1 (R72; log 16, log 28). Safe. -/
  | badLevel (level : Int)
  /-- Raised by every meaning when the lifecycle or a fault forbids the request (R82). Safe. -/
  | noInstance
  /-- Raised by the fetch for a reserved header byte (R48). Safe. -/
  | reservedEncoding (header : Byte)
  /-- Raised by the fetch for a packed request with missing operand bytes (log 9). Safe. -/
  | truncatedRequest
  /-- Raised by the fetch for two requests that overlap in time (R39). Safe. -/
  | concurrent
  /-- Raised by the MMIO meanings for an offset that is not of the row's kind: such a term is no request of the
  row, and the decoder never makes one (log 17). Safe. -/
  | operandCondition
  deriving DecidableEq, Repr

/-- The state of the machine: the block's own state (R11), and below it the fields of the model that stand for the
block's surroundings. -/
structure State where
  /-- NUM_LINES (R11): fixed when the block is created. -/
  numLines : Nat
  /-- The status register (R12). -/
  status : StatusWord
  /-- The line registers, register 0 first (R14). -/
  line : List Byte
  /-- The level last pushed (R18). -/
  out : Bool
  /-- Every level pushed, oldest first (R19). -/
  pushes : List Bool
  /-- The lifecycle (R20). -/
  life : Life
  /-- The first fault taken (R21). -/
  fault : Option FaultReason
  /-- Model: what the last completed request returned (R8 `return v`, R41; log 10). -/
  reply : Reply
  /-- Model: the arrivals not yet served, next first (R35; log 7). -/
  inbox : List Arrival
  /-- Model: whether the environment can allocate the line array when CREATE asks for it (R79; log 11). -/
  canAllocate : Bool
  /-- Model: the parameter BUS_BYTE_ORDER (R5, R29; log 15). -/
  busOrder : Config.ByteOrder
  deriving DecidableEq, Repr

/-- The machine right after reset: a block just created with the default number of lines (R93; log 1, 2, 3). -/
def State.reset : State where
  numLines := Config.defaultNumLines
  status := 0
  line := List.replicate Config.defaultNumLines 0
  out := false
  pushes := []
  life := .alive
  fault := none
  reply := .nothing
  inbox := []
  canAllocate := true
  busOrder := Config.defaultBusOrder

/-- The machine before the block is created: `life` is NONE (R20) and there is no register yet (log 4). -/
def State.uncreated : State where
  numLines := Config.defaultNumLines
  status := 0
  line := []
  out := false
  pushes := []
  life := .none
  fault := none
  reply := .nothing
  inbox := []
  canAllocate := true
  busOrder := Config.defaultBusOrder

end Sys2Proof.Machine
end

