-- ==== Sys2Proof/Machine/Ops.lean ====
section
/-! DEFINITION. The named operations that the meanings share: the Register Bank's primitives (spec 40_register_bank.md),
the Aggregation Engine and output driver (spec 41_aggregation.md), taking a fault (spec 10_state.md R21), the checks
that come before a request's effect (spec 30_encoding.md R45), and the fetch of the next request. The block has no
trap entry and no return from one (spec 60_exceptions.md R86, R87); `recordFault` is the only fault entry there is. -/

namespace Sys2Proof.Machine

/-! ### Plain updates -/

/-- The answer to the request's initiator (R8 `return v`). -/
def setReply (r : Reply) (s : State) : State := { s with reply := r }

/-- Taking a fault: it is kept, and nothing else of the block changes (R21, R71, R80). Nothing is returned. -/
def recordFault (r : FaultReason) (s : State) : State :=
  { s with fault := some r, reply := .nothing }

/-- The arrivals left once the next one is taken. -/
def setInbox (rest : List Arrival) (s : State) : State := { s with inbox := rest }

/-! ### Register Bank -/

/-- `read_status` (R50). -/
def readStatus (s : State) : StatusWord := s.status

/-- `write_status` (R51): the register is replaced by the low 32 bits. -/
def writeStatus (value : Word) (s : State) : State := { s with status := value.setWidth 32 }

/-- `read_line` (R52); an index outside the array faults (R54). -/
def readLine (i : Nat) (s : State) : Except Fault Byte :=
  match s.line[i]? with
  | some b => .ok b
  | none => .error (.bankIndex i)

/-- `write_line` (R53); an index outside the array faults (R54). -/
def writeLine (i : Nat) (value : Byte) (s : State) : Except Fault State :=
  if i < s.line.length then .ok { s with line := s.line.set i value } else .error (.bankIndex i)

/-- `line[i][pos] <- x` (R8, R53): one bit of one line register. -/
def writeLineBit (i pos : Nat) (x : Bool) (s : State) : Except Fault State :=
  match readLine i s with
  | .ok b => writeLine i (setBit pos x b) s
  | .error f => .error f

/-- Go on with what a bank primitive gave, or stop with its fault (R54). -/
def ofBank {α : Type} (r : Except Fault α) (k : α → Host.Outcome State Fault Refusal) :
    Host.Outcome State Fault Refusal :=
  match r with
  | .ok a => k a
  | .error f => .fault f

/-! ### Aggregation Engine and output driver -/

/-- The output level: GLOBAL_ENABLED and the OR over all lines of ACTIVE and ENABLED (R55). -/
def level (s : State) : Bool := s.line.any contributes && globalEnabled s.status

/-- `Push(level)` (R56): every push is recorded, changed or not. -/
def push (lv : Bool) (s : State) : State := { s with pushes := s.pushes ++ [lv] }

/-- `Aggregate()` (R55): recompute the level, drive it and push it. -/
def aggregate (s : State) : State := push (level s) { s with out := level s }

/-! ### The checks before a request's effect, in the order of R45 -/

/-- Whether the block serves requests other than CREATE: alive and unfaulted (R82). -/
def served (s : State) : Bool := decide (s.life = .alive) && decide (s.fault = none)

/-- Whether the block can still be created: not created yet and unfaulted (R82). -/
def creatable (s : State) : Bool := decide (s.life = .none) && decide (s.fault = none)

/-- Step 2 of R45: refuse a request that the lifecycle or a fault forbids (R82). -/
def whenServed (s : State) (k : Host.Outcome State Fault Refusal) : Host.Outcome State Fault Refusal :=
  if served s then k else .refused .noInstance

/-- Step 2 of R45 for CREATE (R82). -/
def whenCreatable (s : State) (k : Host.Outcome State Fault Refusal) : Host.Outcome State Fault Refusal :=
  if creatable s then k else .refused .noInstance

/-- Step 3 of R45: refuse an access size that the block does not support (R67). -/
def whenSized (size : Nat) (k : Host.Outcome State Fault Refusal) : Host.Outcome State Fault Refusal :=
  if sizeSupported size then k else .refused (.unsupportedSize size)

/-- Step 4 of R45 for an access at a line register: its index, if the offset is of this row (R44, log 17). -/
def whenLineTarget (s : State) (offset : Word) (k : Nat → Host.Outcome State Fault Refusal) :
    Host.Outcome State Fault Refusal :=
  match mmioTarget s.numLines offset with
  | .line i => k i
  | .status => .refused .operandCondition
  | .invalid => .refused .operandCondition

/-- Step 4 of R45 for an access at no register, if the offset is of this row (R44, log 17). -/
def whenInvalidTarget (s : State) (offset : Word) (k : Host.Outcome State Fault Refusal) :
    Host.Outcome State Fault Refusal :=
  match mmioTarget s.numLines offset with
  | .invalid => k
  | .status => .refused .operandCondition
  | .line _ => .refused .operandCondition

/-! ### Effects that several requests share -/

/-- A line-signal event: ACTIVE of line `i` becomes `x` and the output is recomputed; an index that names no line is
a contract violation (R69, R70, R71). -/
def lineSignal (i : Word) (x : Bool) (s : State) : Host.Outcome State Fault Refusal :=
  match lineIndex s.numLines i with
  | none => .next (recordFault (.contractViolation i.toNat) s)
  | some k => ofBank (writeLineBit k activePos x s) fun t => .next (setReply .nothing (aggregate t))

/-- A management request: bit `pos` of line `i` becomes `x`, the output is recomputed, and the result is OK; an index
that names no line is rejected before anything changes (R73 to R77). -/
def manage (i : Word) (pos : Nat) (x : Bool) (s : State) : Host.Outcome State Fault Refusal :=
  match managementIndex s.numLines i with
  | none => .next (setReply .invalidArgument s)
  | some k => ofBank (writeLineBit k pos x s) fun t => .next (setReply .ok (aggregate t))

/-- The block just created with `n` lines (R79). -/
def construct (n : Nat) (s : State) : State :=
  { s with
    numLines := n, status := 0, line := List.replicate n 0, out := false, pushes := [],
    life := .alive, fault := none, reply := .nothing }

/-! ### The fetch of the next request -/

/-- What stands next at the block. -/
inductive Fetched
  /-- No request. -/
  | idle
  /-- An instruction, and the arrivals after it. -/
  | run (i : Instr) (rest : List Arrival)
  /-- Bytes or a request that stand for no instruction. -/
  | rejected (e : DecodeError)
  /-- Two requests that overlap (R39). -/
  | overlapping
  deriving DecidableEq, Repr

/-- The arrivals left when `tail` is what remains of a stream of packed requests. -/
def putBack (tail : List Byte) (rest : List Arrival) : List Arrival :=
  match tail with
  | [] => rest
  | b :: bs => .bytes (b :: bs) :: rest

/-- The outcome of one request that is no packed one. -/
def fetchRequest (numLines : Nat) (r : Request) (rest : List Arrival) : Fetched :=
  match classify numLines r with
  | .ok i => .run i rest
  | .error e => .rejected e

/-- The next request among the arrivals, in the host's order (R35); an arrival of no bytes is no request. -/
def fetch (numLines : Nat) (order : Config.ByteOrder) : List Arrival → Fetched
  | [] => .idle
  | .bytes [] :: rest => fetch numLines order rest
  | .bytes (b :: bs) :: rest =>
    match decode numLines (b :: bs) with
    | .ok (i, tail) => .run i (putBack tail rest)
    | .error e => .rejected e
  | .call r :: rest => fetchRequest numLines r rest
  | .busWrite offset lanes :: rest =>
    fetchRequest numLines (.mmioWrite offset lanes.length (busValue order lanes)) rest
  | .overlap _ _ :: _ => .overlapping

/-- The refusal of what stands for no instruction. A reserved header is refused before any other check (step 1 of
R45). R45 places neither of the other two, and the model chooses: missing operand bytes are refused with the header,
before the lifecycle check (DESIGN CHOICE, log 9); a level that is not one bit is refused after the lifecycle check,
as a size is (log 16), and before the index is looked at (DESIGN CHOICE, log 28). -/
def refusalOf (e : DecodeError) (s : State) : Refusal :=
  match e with
  | .reservedEncoding header => .reservedEncoding header
  | .truncated => .truncatedRequest
  | .badLevel lv => if served s then .badLevel lv else .noInstance

/-- The bytes of the last reply as they lie at rising bus addresses, for a read of `size` bytes (R29, D10); none
when no datum was returned. -/
def replyLanes (size : Nat) (s : State) : Option (List Byte) :=
  match s.reply with
  | .data v => some (busLanes s.busOrder size v)
  | .nothing => none
  | .ok => none
  | .invalidArgument => none

end Sys2Proof.Machine
end

