-- ==== Sys2Proof/Machine/Lifecycle.lean ====
section
/-! DEFINITION. The meanings of create and destroy (spec 45_lifecycle.md). -/

namespace Sys2Proof.Machine

/-- CREATE (R79): a new block of `n` lines, all state zero and no push; where `n` is no line count or the array
cannot be allocated, the construction fails (R80; log 11, 12). -/
def execCreate (n : Word) (s : State) : Host.Outcome State Fault Refusal :=
  whenCreatable s <|
    if lineCountAllowed n && s.canAllocate then .next (construct n.toNat s)
    else .next (recordFault .constructionFailure s)

/-- DESTROY (R81): the block is released; it makes no push and its registers stay as they are (D33, log 23). -/
def execDestroy (s : State) : Host.Outcome State Fault Refusal :=
  whenServed s (.next { s with life := .destroyed, reply := .nothing })

end Sys2Proof.Machine
end

