-- ==== Sys2Proof/Machine/LineSignal.lean ====
section
/-! DEFINITION. The meanings of the external line signals (spec 43_line_signal.md). -/

namespace Sys2Proof.Machine

/-- LINE_RAISE (R69): ACTIVE of the line is set. -/
def execLineRaise (i : Word) (s : State) : Host.Outcome State Fault Refusal :=
  whenServed s (lineSignal i true s)

/-- LINE_LOWER (R70): ACTIVE of the line is cleared. -/
def execLineLower (i : Word) (s : State) : Host.Outcome State Fault Refusal :=
  whenServed s (lineSignal i false s)

end Sys2Proof.Machine
end

