-- ==== Sys2Proof/Machine/Management.lean ====
section
/-! DEFINITION. The meanings of the management operations (spec 44_management.md). -/

namespace Sys2Proof.Machine

/-- SET_LINE (R73): ACTIVE of the line is set. -/
def execSetLine (i : Word) (s : State) : Host.Outcome State Fault Refusal :=
  whenServed s (manage i activePos true s)

/-- CLEAR_LINE (R74): ACTIVE of the line is cleared. -/
def execClearLine (i : Word) (s : State) : Host.Outcome State Fault Refusal :=
  whenServed s (manage i activePos false s)

/-- ENABLE_LINE (R75): ENABLED of the line is set. -/
def execEnableLine (i : Word) (s : State) : Host.Outcome State Fault Refusal :=
  whenServed s (manage i enabledPos true s)

/-- DISABLE_LINE (R76): ENABLED of the line is cleared. -/
def execDisableLine (i : Word) (s : State) : Host.Outcome State Fault Refusal :=
  whenServed s (manage i enabledPos false s)

end Sys2Proof.Machine
end

