-- ==== Sys2Proof/Machine/Mmio.lean ====
section
/-! DEFINITION. The meanings of the MMIO reads and writes (spec 42_mmio.md). -/

namespace Sys2Proof.Machine

/-- MMIO_READ_STATUS (R61): the status register masked to the access width; the read pushes the output again. -/
def execMmioReadStatus (size : Nat) (s : State) : Host.Outcome State Fault Refusal :=
  whenServed s <| whenSized size <|
    .next (setReply (.data ((readStatus s).setWidth 64 &&& mask size)) (aggregate s))

/-- MMIO_READ_LINE (R62): the one line register at the offset, whatever the size; the read pushes the output. -/
def execMmioReadLine (size : Nat) (offset : Word) (s : State) : Host.Outcome State Fault Refusal :=
  whenServed s <| whenSized size <| whenLineTarget s offset fun i =>
    ofBank (readLine i s) fun b =>
      .next (setReply (.data (b.setWidth 64 &&& 0xFF#64)) (aggregate s))

/-- MMIO_READ_INVALID (R63): 0, and no further action. -/
def execMmioReadInvalid (size : Nat) (offset : Word) (s : State) : Host.Outcome State Fault Refusal :=
  whenServed s <| whenSized size <| whenInvalidTarget s offset <|
    .next (setReply (.data 0) s)

/-- MMIO_WRITE_STATUS (R64): the composed value replaces the whole register (D4, log 13). -/
def execMmioWriteStatus (size : Nat) (value : Word) (s : State) : Host.Outcome State Fault Refusal :=
  whenServed s <| whenSized size <|
    .next (setReply .nothing (aggregate (writeStatus (compose value size) s)))

/-- MMIO_WRITE_LINE (R65): the low byte of the value replaces the one line register at the offset. -/
def execMmioWriteLine (size : Nat) (offset value : Word) (s : State) : Host.Outcome State Fault Refusal :=
  whenServed s <| whenSized size <| whenLineTarget s offset fun i =>
    ofBank (writeLine i (byteAt value 0) s) fun t => .next (setReply .nothing (aggregate t))

/-- MMIO_WRITE_INVALID (R66): nothing, and no push (D12, log 14). The value takes no part. -/
def execMmioWriteInvalid (size : Nat) (offset : Word) (_value : Word) (s : State) :
    Host.Outcome State Fault Refusal :=
  whenServed s <| whenSized size <| whenInvalidTarget s offset <|
    .next (setReply .nothing s)

end Sys2Proof.Machine
end

