-- ==== Sys2Proof/Machine/Dispatch.lean ====
section
/-! DEFINITION. One arm per instruction: the meaning of each row of spec/opcode_table.json. -/

namespace Sys2Proof.Machine

def exec (i : Instr) (s : State) : Host.Outcome State Fault Refusal :=
  match i with
  | .mmioReadStatus size => Sys2Proof.Machine.execMmioReadStatus size s
  | .mmioReadLine size offset => Sys2Proof.Machine.execMmioReadLine size offset s
  | .mmioReadInvalid size offset => Sys2Proof.Machine.execMmioReadInvalid size offset s
  | .mmioWriteStatus size value => Sys2Proof.Machine.execMmioWriteStatus size value s
  | .mmioWriteLine size offset value => Sys2Proof.Machine.execMmioWriteLine size offset value s
  | .mmioWriteInvalid size offset value => Sys2Proof.Machine.execMmioWriteInvalid size offset value s
  | .lineRaise k => Sys2Proof.Machine.execLineRaise k s
  | .lineLower k => Sys2Proof.Machine.execLineLower k s
  | .setLine k => Sys2Proof.Machine.execSetLine k s
  | .clearLine k => Sys2Proof.Machine.execClearLine k s
  | .enableLine k => Sys2Proof.Machine.execEnableLine k s
  | .disableLine k => Sys2Proof.Machine.execDisableLine k s
  | .create n => Sys2Proof.Machine.execCreate n s
  | .destroy => Sys2Proof.Machine.execDestroy s

end Sys2Proof.Machine
end

