-- ==== Sys2Proof/Machine/Step.lean ====
section
/-! DEFINITION. One step of the machine: the next request among the arrivals is taken and runs to completion (spec
10_state.md R22, 20_memory.md R33, R35). The block has no program counter: the order of the arrivals is the host's. -/

namespace Sys2Proof.Machine

/-- One step. With no request, nothing happens and the registers hold their values (R16; log 8). -/
def step (s : State) : Host.Outcome State Fault Refusal :=
  match fetch s.numLines s.busOrder s.inbox with
  | .idle => .next s
  | .run i rest => exec i (setInbox rest s)
  | .rejected e => .refused (refusalOf e s)
  | .overlapping => .refused .concurrent

/-- The state with an opcode-table word's request as the next arrival. -/
def State.withFetchWord (s : State) (nbits w : Nat) : State :=
  { s with inbox := .bytes (tableBytes nbits w) :: s.inbox }

end Sys2Proof.Machine
end

