-- ==== Sys2Proof/WellFormed.lean ====
section
/-! DEFINITION. When an instruction is well formed for a block with a given number of lines: its size is one the
block supports (spec R28) and its operands meet the "Operand condition" of its row of the opcode map
(spec 30_encoding.md). An out-of-range line index is NOT ill formed: the request exists, and faults (R71) or is
rejected (R77); nor is CREATE with n = 0 (R80). -/

namespace Sys2Proof

/-- The access sizes of R28. -/
def WellFormed.size (size : Nat) : Bool :=
  size == 1 || size == 2 || size == 4 || size == 8

/-- The offsets of a line register (the opcode map's condition, R44). -/
def WellFormed.lineOffset (numLines : Nat) (offset : Word) : Bool :=
  decide (4 ≤ offset.toNat) && decide (offset.toNat < numLines + 4)

/-- The offsets of no register (the opcode map's condition, R44). -/
def WellFormed.invalidOffset (numLines : Nat) (offset : Word) : Bool :=
  (decide (1 ≤ offset.toNat) && decide (offset.toNat ≤ 3)) || decide (numLines + 4 ≤ offset.toNat)

/-- Well-formedness of an instruction for a block of `numLines` lines. -/
def WellFormed (numLines : Nat) : Instr → Bool
  | .mmioReadStatus size => WellFormed.size size
  | .mmioReadLine size offset => WellFormed.size size && WellFormed.lineOffset numLines offset
  | .mmioReadInvalid size offset => WellFormed.size size && WellFormed.invalidOffset numLines offset
  | .mmioWriteStatus size _ => WellFormed.size size
  | .mmioWriteLine size offset _ => WellFormed.size size && WellFormed.lineOffset numLines offset
  | .mmioWriteInvalid size offset _ => WellFormed.size size && WellFormed.invalidOffset numLines offset
  | .lineRaise _ => true
  | .lineLower _ => true
  | .setLine _ => true
  | .clearLine _ => true
  | .enableLine _ => true
  | .disableLine _ => true
  | .create _ => true
  | .destroy => true

end Sys2Proof
end

