-- ==== Sys2Proof/Safety.lean ====
section
/-! DEFINITION. The words in which claims about the controller are stated: the output formula as the spec writes it,
when a block serves requests, and the invariant of its states. -/

namespace Sys2Proof.Machine

/-- Line register `i`, read as the spec writes `line[i]` (R8); 0 outside the array. -/
def State.lineReg (s : State) (i : Nat) : Byte := s.line.getD i 0

/-- The formula of R55, by the spec's own loop over the indices of the lines: bit 0 and bit 7 of some line, and bit 0
of the status register. -/
def State.outputFormula (s : State) : Bool :=
  ((List.range s.numLines).any fun i => (s.lineReg i).getLsbD 0 && (s.lineReg i).getLsbD 7)
    && s.status.getLsbD 0

/-- The state after `Aggregate()`, with the level given by the formula (R55, R56). -/
def State.aggregated (s : State) : State :=
  { s with out := s.outputFormula, pushes := s.pushes ++ [s.outputFormula] }

/-- The block is alive and unfaulted: it serves requests (R82). -/
abbrev State.Serving (s : State) : Prop := s.life = .alive ∧ s.fault = none

/-- The line array has NUM_LINES registers (R14). -/
abbrev State.Sized (s : State) : Prop := s.line.length = s.numLines

/-- An access size of the block (R28). -/
abbrev IsSize (size : Nat) : Prop := size = 1 ∨ size = 2 ∨ size = 4 ∨ size = 8

/-- Which byte of a value of `size` bytes lies at bus address `offset + k` (R29, D10; log 15). -/
def byteOfLane (order : Config.ByteOrder) (size k : Nat) : Nat :=
  match order with
  | .little => k
  | .big => size - 1 - k

/-- The header byte of an instruction's encoding, written as the opcode map writes it: `kind lv 0 sz` (R42). -/
def HasHeader (i : Instr) (kind : BitVec 4) (lv : BitVec 1) (sz : BitVec 2) : Prop :=
  ∃ ops, encode i = some ((kind ++ lv ++ 0#1 ++ sz) :: ops)

/-- The faults a block can hold in each lifecycle state: a contract violation in a live block, by an index that
names no line (R71); a failed construction in a block that was never created (R80). -/
def State.faultFits (s : State) : Bool :=
  match s.fault with
  | none => true
  | some (.contractViolation i) => decide (s.life = .alive) && decide (s.numLines ≤ i)
  | some .constructionFailure => decide (s.life = .none)

/-- The invariant of a block's states. -/
structure State.Inv (s : State) : Prop where
  /-- The number of lines is in the parameter's domain (R5). -/
  linesInDomain : 1 ≤ s.numLines ∧ s.numLines + 4 ≤ 2 ^ 64
  /-- Once created, the line array keeps its NUM_LINES registers (R14). -/
  sized : s.life ≠ .none → s.Sized
  /-- Before creation there is no register, no level and no push (R20, R79). -/
  unborn : s.life = .none → s.line = [] ∧ s.out = false ∧ s.pushes = []
  /-- The output is the formula over the present registers (R18, R58). -/
  outFollows : s.out = s.outputFormula
  /-- The level on the wire is the level last pushed, 0 before the first push (R18, R19). -/
  lastPush : s.pushes.getLastD false = s.out
  /-- A fault fits the lifecycle (R21). -/
  faultFits : s.faultFits = true

/-- Two states that a consumer of the output cannot tell apart: they agree in everything but bits 31:1 of the status
register, bits 6:1 of the line registers (R12, R15) and the last reply. -/
structure SameSignals (s t : State) : Prop where
  numLines : s.numLines = t.numLines
  globalEnabled : s.status.getLsbD 0 = t.status.getLsbD 0
  length : s.line.length = t.line.length
  active : ∀ i, (s.lineReg i).getLsbD 0 = (t.lineReg i).getLsbD 0
  enabled : ∀ i, (s.lineReg i).getLsbD 7 = (t.lineReg i).getLsbD 7
  out : s.out = t.out
  pushes : s.pushes = t.pushes
  life : s.life = t.life
  fault : s.fault = t.fault
  inbox : s.inbox = t.inbox
  canAllocate : s.canAllocate = t.canAllocate
  busOrder : s.busOrder = t.busOrder

/-- The requests that run `Aggregate()` when they complete: the table of R57. -/
def runsAggregate (numLines : Nat) : Instr → Prop
  | .mmioReadStatus _ => True
  | .mmioReadLine _ _ => True
  | .mmioReadInvalid _ _ => False
  | .mmioWriteStatus _ _ => True
  | .mmioWriteLine _ _ _ => True
  | .mmioWriteInvalid _ _ _ => False
  | .lineRaise i => i.toNat < numLines
  | .lineLower i => i.toNat < numLines
  | .setLine i => 0 ≤ i.toInt ∧ i.toInt < numLines
  | .clearLine i => 0 ≤ i.toInt ∧ i.toInt < numLines
  | .enableLine i => 0 ≤ i.toInt ∧ i.toInt < numLines
  | .disableLine i => 0 ≤ i.toInt ∧ i.toInt < numLines
  | .create _ => False
  | .destroy => False

end Sys2Proof.Machine
end

