-- ==== Sys2Proof/Certificates/Slice0/Obligations.lean ====
section
/-! DEFINITION. The statements for the provers. A statement that gives a next state as an equation of whole states is
its own frame: every field that the right side does not name is as before. "[log n]" names a row of
notes/assumptions/, "[D n]" a decision of spec/92_eei_decisions.md that the spec marks as its own choice. -/

open Sys2Proof Sys2Proof.Machine

/-! ### What each request does, where it completes -/

/-- R61: MMIO_READ_STATUS returns the status register masked to the width of the access, and pushes the output
once more; the registers keep their values. -/
def Obligations.ReadStatusReturnsMaskedStatus : Prop :=
  ∀ (s : State) (size : Nat), s.Serving → s.Sized → IsSize size →
    ∃ d : Word,
      exec (.mmioReadStatus size) s = .next { s.aggregated with reply := .data d } ∧
      d = s.status.setWidth 64 &&& BitVec.ofNat 64 (2 ^ (8 * size) - 1) ∧
      (size = 1 → d = (s.status.extractLsb' 0 8).setWidth 64) ∧
      (size = 2 → d = (s.status.extractLsb' 0 16).setWidth 64) ∧
      (size = 4 → d = s.status.setWidth 64) ∧
      (size = 8 → d = s.status.setWidth 64) ∧
      (s.out = s.outputFormula → s.aggregated.out = s.out) ∧
      ∃ sz : BitVec 2, size = 2 ^ sz.toNat ∧ HasHeader (.mmioReadStatus size) 0x1 0 sz

/-- R62: MMIO_READ_LINE returns the one line register at the offset whatever the size, and pushes the output. -/
def Obligations.ReadLineReturnsOneRegister : Prop :=
  ∀ (s : State) (size : Nat) (offset : Word), s.Serving → s.Sized → IsSize size →
    4 ≤ offset.toNat → offset.toNat < s.numLines + 4 →
      exec (.mmioReadLine size offset) s =
        .next { s.aggregated with reply := .data ((s.lineReg (offset.toNat - 4)).setWidth 64) } ∧
      ∃ sz : BitVec 2, size = 2 ^ sz.toNat ∧ HasHeader (.mmioReadLine size offset) 0x1 0 sz

/-- R63: MMIO_READ_INVALID returns 0, at offsets 1, 2, 3 and from NUM_LINES + 4 up, and does nothing else. -/
def Obligations.ReadInvalidReturnsZero : Prop :=
  ∀ (s : State) (size : Nat) (offset : Word), s.Serving → IsSize size →
    (offset.toNat = 1 ∨ offset.toNat = 2 ∨ offset.toNat = 3 ∨ s.numLines + 4 ≤ offset.toNat) →
      exec (.mmioReadInvalid size offset) s = .next { s with reply := .data 0 } ∧
      ∃ sz : BitVec 2, size = 2 ^ sz.toNat ∧ HasHeader (.mmioReadInvalid size offset) 0x1 0 sz

/-- MMIO_WRITE_STATUS replaces the whole status register by the bytes of the access and pushes the output. That a
narrow write clears the bytes above its width is the spec's own reading [D4, log 13]. -/
def Obligations.WriteStatusReplacesRegister : Prop :=
  ∀ (s : State) (size : Nat) (value : Word), s.Serving → s.Sized → IsSize size →
    ∃ v : StatusWord,
      exec (.mmioWriteStatus size value) s =
        .next { State.aggregated { s with status := v } with reply := .nothing } ∧
      (size = 1 → v = (value.extractLsb' 0 8).setWidth 32) ∧
      (size = 2 → v = (value.extractLsb' 0 16).setWidth 32) ∧
      (size = 4 → v = value.extractLsb' 0 32) ∧
      (size = 8 → v = value.extractLsb' 0 32) ∧
      (value.getLsbD 0 = false → (State.aggregated { s with status := v }).out = false) ∧
      ∃ sz : BitVec 2, size = 2 ^ sz.toNat ∧ HasHeader (.mmioWriteStatus size value) 0x2 0 sz

/-- R65: MMIO_WRITE_LINE stores the low byte of the value in the one line register at the offset, whatever the size,
and pushes the output; every other line register keeps its value. -/
def Obligations.WriteLineReplacesOneRegister : Prop :=
  ∀ (s : State) (size : Nat) (offset value : Word), s.Serving → s.Sized → IsSize size →
    4 ≤ offset.toNat → offset.toNat < s.numLines + 4 →
      exec (.mmioWriteLine size offset value) s =
        .next { State.aggregated { s with line := s.line.set (offset.toNat - 4) (value.extractLsb' 0 8) } with
          reply := .nothing } ∧
      (∀ j, (State.lineReg { s with line := s.line.set (offset.toNat - 4) (value.extractLsb' 0 8) } j) =
        if j = offset.toNat - 4 then value.extractLsb' 0 8 else s.lineReg j) ∧
      ∃ sz : BitVec 2, size = 2 ^ sz.toNat ∧ HasHeader (.mmioWriteLine size offset value) 0x2 0 sz

/-- MMIO_WRITE_INVALID changes nothing of the block, at offsets 1, 2, 3 and from NUM_LINES + 4 up. That it makes no
push is the spec's own reading [D12, log 14]. -/
def Obligations.WriteInvalidChangesNothing : Prop :=
  ∀ (s : State) (size : Nat) (offset value : Word), s.Serving → IsSize size →
    (offset.toNat = 1 ∨ offset.toNat = 2 ∨ offset.toNat = 3 ∨ s.numLines + 4 ≤ offset.toNat) →
      exec (.mmioWriteInvalid size offset value) s = .next { s with reply := .nothing } ∧
      ∃ sz : BitVec 2, size = 2 ^ sz.toNat ∧ HasHeader (.mmioWriteInvalid size offset value) 0x2 0 sz

/-- LINE_RAISE on a line sets ACTIVE of that line, keeps its other 7 bits, and pushes the output; where ACTIVE is set
already no register changes. An index of no line is `ContractViolationIsKept`. -/
def Obligations.LineRaiseSetsActive : Prop :=
  ∀ (s : State) (i : Word), s.Serving → s.Sized → i.toNat < s.numLines →
    exec (.lineRaise i) s =
      .next { State.aggregated { s with line := s.line.set i.toNat (s.lineReg i.toNat ||| 0x01#8) } with
        reply := .nothing } ∧
    ((s.lineReg i.toNat).getLsbD 0 = true →
      s.line.set i.toNat (s.lineReg i.toNat ||| 0x01#8) = s.line) ∧
    HasHeader (.lineRaise i) 0x3 1 0

/-- LINE_LOWER on a line clears ACTIVE of that line, keeps its other 7 bits, and pushes the output; where ACTIVE is
clear already no register changes. An index of no line is `ContractViolationIsKept`. -/
def Obligations.LineLowerClearsActive : Prop :=
  ∀ (s : State) (i : Word), s.Serving → s.Sized → i.toNat < s.numLines →
    exec (.lineLower i) s =
      .next { State.aggregated { s with line := s.line.set i.toNat (s.lineReg i.toNat &&& 0xFE#8) } with
        reply := .nothing } ∧
    ((s.lineReg i.toNat).getLsbD 0 = false →
      s.line.set i.toNat (s.lineReg i.toNat &&& 0xFE#8) = s.line) ∧
    HasHeader (.lineLower i) 0x3 0 0

/-- R73: SET_LINE sets ACTIVE of its line, keeps the other 7 bits, pushes the output and returns OK, as LINE_RAISE
does but for the result; doing it again adds a push and changes nothing else. An index of no line is rejected with
INVALID_ARGUMENT and nothing changes: that the rejection makes no push is the spec's own choice [D13, log 14], and so
is the rejection of a negative index [D17, log 25]. -/
def Obligations.SetLineSetsActive : Prop :=
  ∀ (s : State) (i : Word), s.Serving → s.Sized →
    (0 ≤ i.toInt → i.toInt < s.numLines →
      ∃ t : State,
        t = { State.aggregated { s with line := s.line.set i.toInt.toNat (s.lineReg i.toInt.toNat ||| 0x01#8) } with
              reply := .ok } ∧
        exec (.setLine i) s = .next t ∧
        exec (.lineRaise i) s = .next { t with reply := .nothing } ∧
        exec (.setLine i) t = .next { t with pushes := t.pushes ++ [t.out] }) ∧
    (¬(0 ≤ i.toInt ∧ i.toInt < s.numLines) →
      exec (.setLine i) s = .next { s with reply := .invalidArgument }) ∧
    HasHeader (.setLine i) 0x4 0 0

/-- R74: CLEAR_LINE clears ACTIVE of its line, keeps the other 7 bits, pushes the output and returns OK, as LINE_LOWER
does but for the result. An index of no line is rejected with INVALID_ARGUMENT and nothing changes: that the rejection
makes no push is the spec's own choice [D13, log 14], and so is the rejection of a negative index [D17, log 25]. -/
def Obligations.ClearLineClearsActive : Prop :=
  ∀ (s : State) (i : Word), s.Serving → s.Sized →
    (0 ≤ i.toInt → i.toInt < s.numLines →
      ∃ t : State,
        t = { State.aggregated { s with line := s.line.set i.toInt.toNat (s.lineReg i.toInt.toNat &&& 0xFE#8) } with
              reply := .ok } ∧
        exec (.clearLine i) s = .next t ∧
        exec (.lineLower i) s = .next { t with reply := .nothing }) ∧
    (¬(0 ≤ i.toInt ∧ i.toInt < s.numLines) →
      exec (.clearLine i) s = .next { s with reply := .invalidArgument }) ∧
    HasHeader (.clearLine i) 0x5 0 0

/-- R75: ENABLE_LINE sets ENABLED of its line, keeps the other 7 bits, pushes the output and returns OK; on a line that
is ACTIVE, with GLOBAL_ENABLED set, the output is 1 at once. An index of no line is rejected with INVALID_ARGUMENT
and nothing changes: that the rejection makes no push is the spec's own choice [D13, log 14], and so is the rejection
of a negative index [D17, log 25]. -/
def Obligations.EnableLineSetsEnabled : Prop :=
  ∀ (s : State) (i : Word), s.Serving → s.Sized →
    (0 ≤ i.toInt → i.toInt < s.numLines →
      ∃ t : State,
        t = { State.aggregated { s with line := s.line.set i.toInt.toNat (s.lineReg i.toInt.toNat ||| 0x80#8) } with
              reply := .ok } ∧
        exec (.enableLine i) s = .next t ∧
        ((s.lineReg i.toInt.toNat).getLsbD 0 = true → s.status.getLsbD 0 = true → t.out = true)) ∧
    (¬(0 ≤ i.toInt ∧ i.toInt < s.numLines) →
      exec (.enableLine i) s = .next { s with reply := .invalidArgument }) ∧
    HasHeader (.enableLine i) 0x6 0 0

/-- R76: DISABLE_LINE clears ENABLED of its line, keeps the other 7 bits, pushes the output and returns OK; an
ENABLE_LINE that follows, on a line still ACTIVE with GLOBAL_ENABLED set, makes the output 1 again. An index of no
line is rejected with INVALID_ARGUMENT and nothing changes: that the rejection makes no push is the spec's own choice
[D13, log 14], and so is the rejection of a negative index [D17, log 25]. -/
def Obligations.DisableLineClearsEnabled : Prop :=
  ∀ (s : State) (i : Word), s.Serving → s.Sized →
    (0 ≤ i.toInt → i.toInt < s.numLines →
      ∃ t : State,
        t = { State.aggregated { s with line := s.line.set i.toInt.toNat (s.lineReg i.toInt.toNat &&& 0x7F#8) } with
              reply := .ok } ∧
        exec (.disableLine i) s = .next t ∧
        ((s.lineReg i.toInt.toNat).getLsbD 0 = true → s.status.getLsbD 0 = true →
          ∃ u : State, exec (.enableLine i) t = .next u ∧ u.out = true)) ∧
    (¬(0 ≤ i.toInt ∧ i.toInt < s.numLines) →
      exec (.disableLine i) s = .next { s with reply := .invalidArgument }) ∧
    HasHeader (.disableLine i) 0x7 0 0

/-- CREATE of `n` lines, where `n` is in the parameter's domain and the line array can be allocated, makes a live block
whose registers are all 0, with output 0 and no push. The value 0 of the status register and of the output, and that
creation pushes nothing, are the spec's own choices [D2, D3, log 2, log 3]; the upper bound of `n` is its own as
well [D5, D16]. -/
def Obligations.CreateMakesZeroBlock : Prop :=
  ∀ (s : State) (n : Word), s.life = .none → s.fault = none →
    1 ≤ n.toNat → n.toNat + 4 ≤ 2 ^ 64 → s.canAllocate = true →
      exec (.create n) s =
        .next { s with
          numLines := n.toNat, status := 0, line := List.replicate n.toNat 0, out := false, pushes := [],
          life := .alive, fault := none, reply := .nothing } ∧
      HasHeader (.create n) 0x8 0 0

/-- CREATE with `n = 0`, with `n + 4 > 2 ^ 64`, or where the line array cannot be allocated, fails: the fault is kept,
the block is never created, nothing is pushed, and every later request is refused. That `n = 0` and an `n` beyond the
bound are such failures is a choice [D16, log 12], and so is the form "a next state that holds the fault" [log 5]. -/
def Obligations.FailedConstructionIsFinal : Prop :=
  ∀ (s : State) (n : Word), s.life = .none → s.fault = none →
    (n.toNat = 0 ∨ 2 ^ 64 < n.toNat + 4 ∨ s.canAllocate = false) →
      exec (.create n) s = .next { s with fault := some .constructionFailure, reply := .nothing } ∧
      ∀ i, exec i { s with fault := some .constructionFailure, reply := .nothing } = .refused .noInstance

/-- DESTROY ends the life of the block, and its registers, its output and its pushes stay as they are [D33, log 23];
every request that follows, CREATE too, is refused [D19]. -/
def Obligations.DestroyEndsLife : Prop :=
  ∀ s : State, s.Serving →
    exec .destroy s = .next { s with life := .destroyed, reply := .nothing } ∧
    (∀ i, exec i { s with life := .destroyed, reply := .nothing } = .refused .noInstance) ∧
    HasHeader .destroy 0x9 0 0

/-! ### Faults and refusals -/

/-- A line signal whose index is no line is a contract violation: the fault is kept with the index, and the registers,
the output and the pushes stay as they are; no later request is served. The form "a next state that holds the fault"
is the model's [D15, log 5]. -/
def Obligations.ContractViolationIsKept : Prop :=
  ∀ (s : State) (k : Word), s.Serving → s.numLines ≤ k.toNat →
    exec (.lineRaise k) s = .next { s with fault := some (.contractViolation k.toNat), reply := .nothing } ∧
    exec (.lineLower k) s = .next { s with fault := some (.contractViolation k.toNat), reply := .nothing } ∧
    ∀ i, exec i { s with fault := some (.contractViolation k.toNat), reply := .nothing } = .refused .noInstance

/-- Once a fault is set nothing clears it: every request is refused, and a step that answers a next state has found no
request and changed nothing [D15, D19; log 8 for the step without a request]. -/
def Obligations.FaultIsFinal : Prop :=
  ∀ s : State, s.fault ≠ none →
    (∀ i, exec i s = .refused .noInstance) ∧ ∀ t, step s = .next t → t = s

/-- A request other than CREATE needs a live block without a fault, and CREATE one that is not created yet and without
a fault; otherwise it is refused, whatever its operands [D19]. -/
def Obligations.RequestsNeedTheirLife : Prop :=
  ∀ (s : State) (i : Instr),
    ((∀ n, i ≠ .create n) → ¬(s.life = .alive ∧ s.fault = none) → exec i s = .refused .noInstance) ∧
    (∀ n, i = .create n → ¬(s.life = .none ∧ s.fault = none) → exec i s = .refused .noInstance)

/-- An MMIO access whose size is not 1, 2, 4 or 8 is refused before the offset is looked at [D8]. -/
def Obligations.OtherSizesAreRefused : Prop :=
  ∀ (s : State) (size : Nat) (offset value : Word), s.Serving → ¬IsSize size →
    exec (.mmioReadStatus size) s = .refused (.unsupportedSize size) ∧
    exec (.mmioReadLine size offset) s = .refused (.unsupportedSize size) ∧
    exec (.mmioReadInvalid size offset) s = .refused (.unsupportedSize size) ∧
    exec (.mmioWriteStatus size value) s = .refused (.unsupportedSize size) ∧
    exec (.mmioWriteLine size offset value) s = .refused (.unsupportedSize size) ∧
    exec (.mmioWriteInvalid size offset value) s = .refused (.unsupportedSize size)

/-- A line signal that arrives with a level other than 0 and 1 is refused [D14]; one with level 1 runs as LINE_RAISE
and one with level 0 as LINE_LOWER. That the bad level is refused for an index of no line as well is the model's
choice [log 28]. -/
def Obligations.LineSignalLevelIsOneBit : Prop :=
  ∀ (s : State) (k : Word) (lv : Int) (rest : List Arrival), s.Serving →
    s.inbox = .call (.lineSignal k lv) :: rest →
      (lv ≠ 0 → lv ≠ 1 → step s = .refused (.badLevel lv)) ∧
      (lv = 1 → step s = exec (.lineRaise k) { s with inbox := rest }) ∧
      (lv = 0 → step s = exec (.lineLower k) { s with inbox := rest })

/-- Two requests that overlap in time are refused [D20, log 19]. -/
def Obligations.OverlapIsRefused : Prop :=
  ∀ (s : State) (a b : Request) (rest : List Arrival),
    s.inbox = .overlap a b :: rest → step s = .refused .concurrent

/-- A header byte is refused exactly where its kind is reserved, its bit 2 is set, its level bit is set on a kind other
than LINE_SIGNAL, or its size code is not 0 on a kind that is no MMIO access. The header is the spec's own
encoding [D22]. -/
def Obligations.ReservedHeadersAreRefused : Prop :=
  ∀ (s : State) (b : Byte) (bs : List Byte) (rest : List Arrival), s.inbox = .bytes (b :: bs) :: rest →
    (step s = .refused (.reservedEncoding b) ↔
      (b.extractLsb' 4 4).toNat = 0 ∨ 0xA ≤ (b.extractLsb' 4 4).toNat ∨
      b.getLsbD 2 = true ∨
      (b.getLsbD 3 = true ∧ (b.extractLsb' 4 4).toNat ≠ 3) ∨
      (b.extractLsb' 0 2 ≠ 0 ∧ (b.extractLsb' 4 4).toNat ≠ 1 ∧ (b.extractLsb' 4 4).toNat ≠ 2))

/-- No request ever meets a bank primitive with an index outside the line array: no instruction faults in a state whose
array has NUM_LINES registers, and no step faults in a state that meets the invariant. -/
def Obligations.BankIndexIsNeverOutOfRange : Prop :=
  (∀ (s : State) (i : Instr) (r : Fault), s.Sized → exec i s ≠ .fault r) ∧
  (∀ (s : State) (r : Fault), s.Inv → step s ≠ .fault r)

/-- The address decode picks the row whose operand condition the offset meets, in numbers: offset 0 the status row,
offsets 1 to 3 and those from NUM_LINES + 4 up the invalid row, the others the line row; and the instruction of a
request stands for that request. So no step answers the model's own refusal of a term that is no request of its row
[log 17], or of an instruction without a meaning. -/
def Obligations.StepPicksTheRightRow : Prop :=
  (∀ (n size : Nat) (offset : Word),
    classify n (.mmioRead offset size) = .ok (
      if offset.toNat = 0 then .mmioReadStatus size
      else if offset.toNat < 4 ∨ n + 4 ≤ offset.toNat then .mmioReadInvalid size offset
      else .mmioReadLine size offset)) ∧
  (∀ (n size : Nat) (offset value : Word),
    classify n (.mmioWrite offset size value) = .ok (
      if offset.toNat = 0 then .mmioWriteStatus size value
      else if offset.toNat < 4 ∨ n + 4 ≤ offset.toNat then .mmioWriteInvalid size offset value
      else .mmioWriteLine size offset value)) ∧
  (∀ (n : Nat) (r : Request) (i : Instr), classify n r = .ok i → requestOf i = r) ∧
  ∀ s : State, step s ≠ .refused .operandCondition ∧ ∀ m, step s ≠ .refused (.notModelled m)

/-- Every well-formed request of a live block without a fault answers a next state. That state has no fault, so the
request completed, except for a line signal whose index is no line: its next state holds the contract violation, and
that this is a next state is the model's form of a fault, no completion [log 5]. -/
def Obligations.WellFormedRequestsComplete : Prop :=
  ∀ (s : State) (i : Instr), s.Serving → s.Sized → WellFormed s.numLines i = true → (∀ n, i ≠ .create n) →
    ∃ t, exec i s = .next t ∧
      ((∀ k, i = .lineRaise k ∨ i = .lineLower k → k.toNat < s.numLines) → t.fault = none) ∧
      (∀ k, i = .lineRaise k ∨ i = .lineLower k → s.numLines ≤ k.toNat →
        t.fault = some (.contractViolation k.toNat))

/-! ### Steps, decoding and encoding -/

/-- A step runs the request that arrives next, with that arrival taken: for packed bytes, the instruction their first
bytes decode to, and the bytes after it stay; for an entry-point call, the instruction of its row; for a bus write,
the MMIO write of the value its byte lanes compose. The arrivals and their list are the model's choice of form
[log 7], and the value that lanes compose follows the model's lane mapping [D10, log 15]. -/
def Obligations.StepRunsTheNextRequest : Prop :=
  ∀ (s : State) (rest : List Arrival),
    (∀ (b : Byte) (bs tail : List Byte) (i : Instr), s.inbox = .bytes (b :: bs) :: rest →
      decode s.numLines (b :: bs) = .ok (i, tail) →
        step s = exec i { s with inbox := if tail = [] then rest else .bytes tail :: rest }) ∧
    (∀ (r : Request) (i : Instr), s.inbox = .call r :: rest → classify s.numLines r = .ok i →
        step s = exec i { s with inbox := rest }) ∧
    (∀ (offset : Word) (lanes : List Byte) (i : Instr), s.inbox = .busWrite offset lanes :: rest →
      classify s.numLines (.mmioWrite offset lanes.length (busValue s.busOrder lanes)) = .ok i →
        step s = exec i { s with inbox := rest })

/-- With no request the block does nothing and every register holds its value: the model's choice of what a step
without a request is [log 8]. -/
def Obligations.NoRequestChangesNothing : Prop :=
  ∀ s : State, s.inbox = [] → step s = .next s

/-- R44: offset 0 is the status register, offsets 4 to NUM_LINES + 3 are the line registers in order, and every other
offset is no register. -/
def Obligations.OffsetsDecodeByRange : Prop :=
  ∀ (n : Nat) (offset : Word),
    (mmioTarget n offset = .status ↔ offset.toNat = 0) ∧
    (∀ i, mmioTarget n offset = .line i ↔ 4 ≤ offset.toNat ∧ offset.toNat < n + 4 ∧ i = offset.toNat - 4) ∧
    (mmioTarget n offset = .invalid ↔
      offset.toNat = 1 ∨ offset.toNat = 2 ∨ offset.toNat = 3 ∨ n + 4 ≤ offset.toNat)

/-- R46: the shifted OR of the low bytes is the value masked to the size; the status register takes its low 32 bits,
and the byte a line register takes is the same for every size. -/
def Obligations.ComposeMasksTheValue : Prop :=
  ∀ (value : Word) (size : Nat), IsSize size →
    compose value size = value &&& BitVec.ofNat 64 (2 ^ (8 * size) - 1) ∧
    (∀ s : State, writeStatus (compose value size) s = { s with status := (compose value size).extractLsb' 0 32 }) ∧
    (compose value size).extractLsb' 0 8 = value.extractLsb' 0 8 ∧
    ∀ k, k < size → (compose value size).extractLsb' (8 * k) 8 = value.extractLsb' (8 * k) 8

/-- The bytes of a bus access in either byte order: on a little-endian bus the byte at address offset + k is byte k of
the value, on a big-endian bus it is byte size - 1 - k, and the bytes give back the value masked to the size. The
mapping is the parameter BUS_BYTE_ORDER [D10, log 15]. -/
def Obligations.BusLanesRoundTrip : Prop :=
  ∀ (value : Word) (size : Nat), IsSize size →
    (∀ order, (busLanes order size value).length = size ∧
      busValue order (busLanes order size value) = value &&& BitVec.ofNat 64 (2 ^ (8 * size) - 1)) ∧
    ∀ k, k < size →
      (busLanes .little size value)[k]? = some (value.extractLsb' (8 * k) 8) ∧
      (busLanes .big size value)[k]? = some (value.extractLsb' (8 * (size - 1 - k)) 8)

/-- The datum of an MMIO read as it lies on the bus: lane `k` is byte `k` of the datum on a little-endian bus and byte
size - 1 - k on a big-endian one. A status read shows the bytes of the register and zeros above them, a line read the
one register and zeros, a read at no register zeros alone. The mapping is the parameter BUS_BYTE_ORDER, its big-endian
form the model's inference [D10, log 15]; the zeros above the register are the spec's own choice [D7, log 21]. -/
def Obligations.ReadsLieOnTheBusInItsOrder : Prop :=
  ∀ (s : State) (size : Nat) (offset : Word), s.Serving → s.Sized → IsSize size →
    (∃ t lanes, exec (.mmioReadStatus size) s = .next t ∧ replyLanes size t = some lanes ∧ lanes.length = size ∧
      ∀ k, k < size →
        lanes[k]? = some ((s.status.setWidth 64).extractLsb' (8 * byteOfLane s.busOrder size k) 8)) ∧
    (4 ≤ offset.toNat → offset.toNat < s.numLines + 4 →
      ∃ t lanes, exec (.mmioReadLine size offset) s = .next t ∧ replyLanes size t = some lanes ∧
        lanes.length = size ∧
        ∀ k, k < size →
          lanes[k]? = some (if byteOfLane s.busOrder size k = 0 then s.lineReg (offset.toNat - 4) else 0)) ∧
    (offset.toNat = 1 ∨ offset.toNat = 2 ∨ offset.toNat = 3 ∨ s.numLines + 4 ≤ offset.toNat →
      ∃ t, exec (.mmioReadInvalid size offset) s = .next t ∧ replyLanes size t = some (List.replicate size 0))

/-- A few packed requests of the spec's programs P1 to P4, P7 decode to the requests they stand for. -/
def Obligations.ProgramWordsDecode : Prop :=
  decode 4 [0x80, 4, 0, 0, 0, 0, 0, 0, 0] = .ok (.create 4, []) ∧
  decode 4 [0x60, 2, 0, 0, 0, 0, 0, 0, 0] = .ok (.enableLine 2, []) ∧
  decode 4 [0x12, 6, 0, 0, 0, 0, 0, 0, 0] = .ok (.mmioReadLine 4 6, []) ∧
  decode 4 [0x22, 0, 0, 0, 0, 0, 0, 0, 0, 1, 0, 0, 0, 0, 0, 0, 0] = .ok (.mmioWriteStatus 4 1, []) ∧
  decode 3 [0x38, 1, 0, 0, 0, 0, 0, 0, 0] = .ok (.lineRaise 1, []) ∧
  decode 4 [0x10, 1, 0, 0, 0, 0, 0, 0, 0, 0x90] = .ok (.mmioReadInvalid 1 1, [0x90]) ∧
  decode 1 [0x90] = .ok (.destroy, [])

/-- DECODE AND ENCODE AGREE: every well-formed instruction has an encoding, and decoding that encoding, whatever bytes
follow it, gives back the instruction and those bytes. -/
def Obligations.DecodeOfEncode : Prop :=
  ∀ (n : Nat) (i : Instr), WellFormed n i = true →
    ∃ p, encode i = some p ∧ ∀ rest, decode n (p ++ rest) = .ok (i, rest)

/-- ENCODE AND DECODE AGREE: what the decoder reads is well formed, and the bytes it read are exactly the encoding of
what it answers; so no two encodings stand for one instruction. -/
def Obligations.EncodeOfDecode : Prop :=
  ∀ (n : Nat) (bs rest : List Byte) (i : Instr), decode n bs = .ok (i, rest) →
    WellFormed n i = true ∧ ∃ p, encode i = some p ∧ bs = p ++ rest

/-! ### Register Bank and Aggregation Engine -/

/-- R50 to R53: the bank's primitives read the registers unmodified and replace them whole. -/
def Obligations.BankReadsAndReplacesWhole : Prop :=
  (∀ (s : State) (v : Word),
    readStatus s = s.status ∧ writeStatus v s = { s with status := v.extractLsb' 0 32 }) ∧
  ∀ (s : State) (i : Nat) (b : Byte), i < s.line.length →
    readLine i s = .ok (s.lineReg i) ∧
    writeLine i b s = .ok { s with line := s.line.set i b } ∧
    readLine i { s with line := s.line.set i b } = .ok b

/-- R55: `Aggregate()` gives the output the level of the formula, pushes that level, and changes nothing else; the
formula is GLOBAL_ENABLED and, over the lines, ACTIVE and ENABLED. -/
def Obligations.AggregateFollowsTheFormula : Prop :=
  ∀ s : State, s.Sized →
    aggregate s = s.aggregated ∧
    ((aggregate s).out = true ↔
      s.status.getLsbD 0 = true ∧
      ∃ i, i < s.numLines ∧ (s.lineReg i).getLsbD 0 = true ∧ (s.lineReg i).getLsbD 7 = true)

/-- R13: GLOBAL_ENABLED gates the whole output, and no other bit of the status register enters it. -/
def Obligations.GlobalEnabledGatesTheOutput : Prop :=
  ∀ s : State, s.Sized →
    (s.status.getLsbD 0 = false → level s = false) ∧
    (s.status.getLsbD 0 = true →
      (level s = true ↔ ∃ i, i < s.numLines ∧ active (s.lineReg i) = true ∧ enabled (s.lineReg i) = true)) ∧
    ∀ v : StatusWord, v.getLsbD 0 = s.status.getLsbD 0 → level { s with status := v } = level s

/-- Which requests push: one of the table's "yes" rows adds exactly one push, of the level then on the output; any
other request but CREATE leaves the pushes, the output and the registers as they are; CREATE adds none. The rows of
invalid writes, of rejected management requests and of CREATE and DESTROY are the spec's own choices
[D3, D12, D13, D33, log 3, log 14, log 23]. -/
def Obligations.WhichRequestsPush : Prop :=
  ∀ (s t : State) (i : Instr), exec i s = .next t →
    (runsAggregate s.numLines i → t.pushes = s.pushes ++ [t.out]) ∧
    (¬runsAggregate s.numLines i → (∀ n, i ≠ .create n) →
      t.pushes = s.pushes ∧ t.out = s.out ∧ t.status = s.status ∧ t.line = s.line) ∧
    (∀ n, i = .create n → t.pushes = s.pushes ∨ t.pushes = [])

/-- After every completed request the output is the formula over the present registers, if it was before: it is never
stale. That the spec's `out` is a stored level, and 0 at creation, is its own choice [D3, log 3]. -/
def Obligations.OutputIsNeverStale : Prop :=
  ∀ (s t : State) (i : Instr), s.Sized → s.out = s.outputFormula → exec i s = .next t →
    t.Sized ∧ t.out = t.outputFormula

/-- A valid read adds one push of the level already on the output, an invalid one adds none, and no read changes a
register or the output. -/
def Obligations.ReadsOnlyPush : Prop :=
  ∀ (s t : State) (size : Nat) (offset : Word), s.Sized → s.out = s.outputFormula →
    (exec (.mmioReadStatus size) s = .next t →
      t = { s with pushes := s.pushes ++ [s.out], reply := t.reply }) ∧
    (exec (.mmioReadLine size offset) s = .next t →
      t = { s with pushes := s.pushes ++ [s.out], reply := t.reply }) ∧
    (exec (.mmioReadInvalid size offset) s = .next t → t = { s with reply := .data 0 })

/-! ### Who writes what -/

/-- Only an MMIO write at offset 0 and the creation of the block write the status register. -/
def Obligations.StatusHasOneWriter : Prop :=
  ∀ (s t : State) (i : Instr), exec i s = .next t →
    (∀ size v, i ≠ .mmioWriteStatus size v) → (∀ n, i ≠ .create n) → t.status = s.status

/-- R17: in the life of a block, only ENABLE_LINE, DISABLE_LINE and an MMIO write to a line register write ENABLED, and
each of them that of its own line alone. -/
def Obligations.EnabledHasThreeWriters : Prop :=
  ∀ (s t : State) (i : Instr) (j : Nat), s.life ≠ .none → exec i s = .next t →
    (t.lineReg j).getLsbD 7 ≠ (s.lineReg j).getLsbD 7 →
      (∃ k, i = .enableLine k ∧ k.toInt = j) ∨ (∃ k, i = .disableLine k ∧ k.toInt = j) ∨
      (∃ size offset v, i = .mmioWriteLine size offset v ∧ offset.toNat = 4 + j)

/-- ACTIVE is a latch: in the life of a block, only a line signal, SET_LINE, CLEAR_LINE and an MMIO write to a line
register write it, and each of them that of its own line alone [D29, log 22]. -/
def Obligations.ActiveIsLatched : Prop :=
  ∀ (s t : State) (i : Instr) (j : Nat), s.life ≠ .none → exec i s = .next t →
    (t.lineReg j).getLsbD 0 ≠ (s.lineReg j).getLsbD 0 →
      (∃ k, (i = .lineRaise k ∨ i = .lineLower k) ∧ k.toNat = j) ∨
      (∃ k, (i = .setLine k ∨ i = .clearLine k) ∧ k.toInt = j) ∨
      (∃ size offset v, i = .mmioWriteLine size offset v ∧ offset.toNat = 4 + j)

/-- In the life of a block only an MMIO write to the line register writes its reserved bits 6:1, and it stores those of
the written byte. -/
def Obligations.ReservedBitsHoldTheLastWrite : Prop :=
  ∀ (s t : State) (i : Instr) (j : Nat), s.life ≠ .none → exec i s = .next t →
    (t.lineReg j).extractLsb' 1 6 = (s.lineReg j).extractLsb' 1 6 ∨
    ∃ size offset v, i = .mmioWriteLine size offset v ∧ offset.toNat = 4 + j ∧
      (t.lineReg j).extractLsb' 1 6 = v.extractLsb' 1 6

/-- R14: in the life of a block the number of its line registers is fixed, and register `i` sits at offset `4 + i`. -/
def Obligations.LineArrayIsNeverResized : Prop :=
  (∀ (s t : State) (i : Instr), s.life ≠ .none → exec i s = .next t →
    t.line.length = s.line.length ∧ t.numLines = s.numLines) ∧
  ∀ n i : Nat, n + 4 ≤ 2 ^ 64 → i < n → mmioTarget n (BitVec.ofNat 64 (4 + i)) = .line i

/-- The lifecycle: a request changes `life` only from NONE to ALIVE, by CREATE, and from ALIVE to DESTROYED, by
DESTROY; so no block is created twice or revived [D19]. -/
def Obligations.LifecycleOnlyGoesForward : Prop :=
  ∀ (s t : State) (i : Instr), exec i s = .next t →
    t.life = s.life ∨
    (s.life = .none ∧ t.life = .alive ∧ ∃ n, i = .create n) ∨
    (s.life = .alive ∧ t.life = .destroyed ∧ i = .destroy)

/-- The output falls only by a request that clears ACTIVE, ENABLED or GLOBAL_ENABLED, and rises only by one that sets
one of them; so it never rises before the block is created, GLOBAL_ENABLED is set and a line is enabled. -/
def Obligations.WhatMovesTheOutput : Prop :=
  ∀ (s t : State) (i : Instr), s.Inv → exec i s = .next t →
    (s.out = true → t.out = false →
      (∃ k, i = .lineLower k ∨ i = .clearLine k ∨ i = .disableLine k) ∨
      (∃ size v, i = .mmioWriteStatus size v ∧ v.getLsbD 0 = false) ∨
      (∃ size offset v, i = .mmioWriteLine size offset v ∧ (v.getLsbD 0 && v.getLsbD 7) = false)) ∧
    (s.out = false → t.out = true →
      ((∃ k, i = .lineRaise k ∨ i = .setLine k ∨ i = .enableLine k) ∨
       (∃ size v, i = .mmioWriteStatus size v ∧ v.getLsbD 0 = true) ∨
       (∃ size offset v, i = .mmioWriteLine size offset v ∧ (v.getLsbD 0 && v.getLsbD 7) = true)) ∧
      t.life = .alive ∧ t.status.getLsbD 0 = true ∧
      ∃ j, j < t.numLines ∧ (t.lineReg j).getLsbD 7 = true)

/-- R78: how each request moves a line among its four states (ACTIVE, ENABLED), and that the output is 1 exactly where
GLOBAL_ENABLED is 1 and some line is in state (1, 1). -/
def Obligations.FourStatesOfALine : Prop :=
  ∀ (s : State) (k : Word), s.Serving → s.Sized → s.numLines + 4 ≤ 2 ^ 64 → 0 ≤ k.toInt → k.toInt < s.numLines →
    (∃ t, exec (.lineRaise k) s = .next t ∧
      active (t.lineReg k.toNat) = true ∧ enabled (t.lineReg k.toNat) = enabled (s.lineReg k.toNat)) ∧
    (∃ t, exec (.setLine k) s = .next t ∧
      active (t.lineReg k.toNat) = true ∧ enabled (t.lineReg k.toNat) = enabled (s.lineReg k.toNat)) ∧
    (∃ t, exec (.lineLower k) s = .next t ∧
      active (t.lineReg k.toNat) = false ∧ enabled (t.lineReg k.toNat) = enabled (s.lineReg k.toNat)) ∧
    (∃ t, exec (.clearLine k) s = .next t ∧
      active (t.lineReg k.toNat) = false ∧ enabled (t.lineReg k.toNat) = enabled (s.lineReg k.toNat)) ∧
    (∃ t, exec (.enableLine k) s = .next t ∧
      active (t.lineReg k.toNat) = active (s.lineReg k.toNat) ∧ enabled (t.lineReg k.toNat) = true) ∧
    (∃ t, exec (.disableLine k) s = .next t ∧
      active (t.lineReg k.toNat) = active (s.lineReg k.toNat) ∧ enabled (t.lineReg k.toNat) = false) ∧
    (∀ (size : Nat) (v : Word), IsSize size → ∃ t, exec (.mmioWriteLine size (4 + k) v) s = .next t ∧
      active (t.lineReg k.toNat) = v.getLsbD 0 ∧ enabled (t.lineReg k.toNat) = v.getLsbD 7) ∧
    (s.outputFormula = true ↔ s.status.getLsbD 0 = true ∧
      ∃ j, j < s.numLines ∧ active (s.lineReg j) = true ∧ enabled (s.lineReg j) = true)

/-! ### Round trips -/

/-- What is written to the status register is read back by a read of the same width, masked to that width and to the
register's 32 bits. -/
def Obligations.StatusRoundTrip : Prop :=
  ∀ (s : State) (size : Nat) (value : Word), s.Serving → IsSize size →
    ∃ t u, exec (.mmioWriteStatus size value) s = .next t ∧ exec (.mmioReadStatus size) t = .next u ∧
      u.reply = .data (value &&& BitVec.ofNat 64 (2 ^ (8 * size) - 1) &&& 0xFFFFFFFF#64)

/-- The low byte written to a line register, reserved bits and all, is read back by a read of any width. -/
def Obligations.LineRoundTrip : Prop :=
  ∀ (s : State) (size size' : Nat) (offset value : Word), s.Serving → s.Sized → IsSize size → IsSize size' →
    4 ≤ offset.toNat → offset.toNat < s.numLines + 4 →
    ∃ t u, exec (.mmioWriteLine size offset value) s = .next t ∧
      exec (.mmioReadLine size' offset) t = .next u ∧
      u.reply = .data (value &&& 0xFF#64)

/-! ### The invariant -/

/-- The state after reset: a live block of 64 lines, all registers 0, output 0, no push, no fault. The zeros of the
status register and of the output, and the empty history, are the spec's own choices [D2, D3, log 2, log 3]; that
reset is this creation is log 1. -/
def Obligations.ResetIsTheCreatedBlock : Prop :=
  State.reset.numLines = 64 ∧ State.reset.status = 0 ∧ State.reset.line = List.replicate 64 0 ∧
  State.reset.out = false ∧ State.reset.pushes = [] ∧ State.reset.life = .alive ∧ State.reset.fault = none ∧
  ∀ s : State, s.life = .none → s.fault = none → s.canAllocate = true →
    exec (.create 64) s =
      .next { State.reset with inbox := s.inbox, canAllocate := s.canAllocate, busOrder := s.busOrder }

/-- The invariant holds after reset, and in the block that is not created yet [log 1, log 4]. -/
def Obligations.ResetMeetsTheInvariant : Prop :=
  State.reset.Inv ∧ State.uncreated.Inv

/-- AN INVARIANT THAT EVERY STEP KEEPS: the number of lines in its domain, the line array of that length, nothing before
creation, the output equal to the formula and to the last push, and a fault that fits the lifecycle. -/
def Obligations.StepKeepsTheInvariant : Prop :=
  ∀ s t : State, s.Inv → step s = .next t → t.Inv

/-- The invariant holds after every run, of any requests in any order, from any state that meets it; and the history of
pushes only grows along the run. -/
def Obligations.RunsKeepTheInvariantAndTheHistory : Prop :=
  ∀ (k : Nat) (s t : State), s.Inv → Sys2Proof.core.run k s = .next t →
    t.Inv ∧ ∃ more, t.pushes = s.pushes ++ more

/-- Bits 31:1 of the status register and the reserved bits of the line registers never reach the output: two states
that agree in everything else take the same steps, push the same levels, and agree again. -/
def Obligations.UnnamedBitsNeverReachTheOutput : Prop :=
  ∀ s s' t : State, SameSignals s s' → step s = .next t →
    ∃ t', step s' = .next t' ∧ SameSignals t t'
end

