-- ==== Sys2Proof/Laws/State.lean ====
section
/-! SUPPORT. What each update of the state does to each field: one lemma per field per update. -/

namespace Sys2Proof.Machine

@[simp] theorem setReply_numLines (r : Reply) (s : State) : (setReply r s).numLines = s.numLines := rfl
@[simp] theorem setReply_status (r : Reply) (s : State) : (setReply r s).status = s.status := rfl
@[simp] theorem setReply_line (r : Reply) (s : State) : (setReply r s).line = s.line := rfl
@[simp] theorem setReply_out (r : Reply) (s : State) : (setReply r s).out = s.out := rfl
@[simp] theorem setReply_pushes (r : Reply) (s : State) : (setReply r s).pushes = s.pushes := rfl
@[simp] theorem setReply_life (r : Reply) (s : State) : (setReply r s).life = s.life := rfl
@[simp] theorem setReply_fault (r : Reply) (s : State) : (setReply r s).fault = s.fault := rfl
@[simp] theorem setReply_reply (r : Reply) (s : State) : (setReply r s).reply = r := rfl
@[simp] theorem setReply_inbox (r : Reply) (s : State) : (setReply r s).inbox = s.inbox := rfl
@[simp] theorem setReply_canAllocate (r : Reply) (s : State) : (setReply r s).canAllocate = s.canAllocate := rfl
@[simp] theorem setReply_busOrder (r : Reply) (s : State) : (setReply r s).busOrder = s.busOrder := rfl

@[simp] theorem recordFault_numLines (r : FaultReason) (s : State) : (recordFault r s).numLines = s.numLines := rfl
@[simp] theorem recordFault_status (r : FaultReason) (s : State) : (recordFault r s).status = s.status := rfl
@[simp] theorem recordFault_line (r : FaultReason) (s : State) : (recordFault r s).line = s.line := rfl
@[simp] theorem recordFault_out (r : FaultReason) (s : State) : (recordFault r s).out = s.out := rfl
@[simp] theorem recordFault_pushes (r : FaultReason) (s : State) : (recordFault r s).pushes = s.pushes := rfl
@[simp] theorem recordFault_life (r : FaultReason) (s : State) : (recordFault r s).life = s.life := rfl
@[simp] theorem recordFault_fault (r : FaultReason) (s : State) : (recordFault r s).fault = some r := rfl
@[simp] theorem recordFault_reply (r : FaultReason) (s : State) : (recordFault r s).reply = .nothing := rfl
@[simp] theorem recordFault_inbox (r : FaultReason) (s : State) : (recordFault r s).inbox = s.inbox := rfl
@[simp] theorem recordFault_canAllocate (r : FaultReason) (s : State) : (recordFault r s).canAllocate = s.canAllocate := rfl
@[simp] theorem recordFault_busOrder (r : FaultReason) (s : State) : (recordFault r s).busOrder = s.busOrder := rfl

@[simp] theorem setInbox_numLines (rest : List Arrival) (s : State) : (setInbox rest s).numLines = s.numLines := rfl
@[simp] theorem setInbox_status (rest : List Arrival) (s : State) : (setInbox rest s).status = s.status := rfl
@[simp] theorem setInbox_line (rest : List Arrival) (s : State) : (setInbox rest s).line = s.line := rfl
@[simp] theorem setInbox_out (rest : List Arrival) (s : State) : (setInbox rest s).out = s.out := rfl
@[simp] theorem setInbox_pushes (rest : List Arrival) (s : State) : (setInbox rest s).pushes = s.pushes := rfl
@[simp] theorem setInbox_life (rest : List Arrival) (s : State) : (setInbox rest s).life = s.life := rfl
@[simp] theorem setInbox_fault (rest : List Arrival) (s : State) : (setInbox rest s).fault = s.fault := rfl
@[simp] theorem setInbox_reply (rest : List Arrival) (s : State) : (setInbox rest s).reply = s.reply := rfl
@[simp] theorem setInbox_inbox (rest : List Arrival) (s : State) : (setInbox rest s).inbox = rest := rfl
@[simp] theorem setInbox_canAllocate (rest : List Arrival) (s : State) : (setInbox rest s).canAllocate = s.canAllocate := rfl
@[simp] theorem setInbox_busOrder (rest : List Arrival) (s : State) : (setInbox rest s).busOrder = s.busOrder := rfl

@[simp] theorem writeStatus_numLines (v : Word) (s : State) : (writeStatus v s).numLines = s.numLines := rfl
@[simp] theorem writeStatus_status (v : Word) (s : State) : (writeStatus v s).status = v.setWidth 32 := rfl
@[simp] theorem writeStatus_line (v : Word) (s : State) : (writeStatus v s).line = s.line := rfl
@[simp] theorem writeStatus_out (v : Word) (s : State) : (writeStatus v s).out = s.out := rfl
@[simp] theorem writeStatus_pushes (v : Word) (s : State) : (writeStatus v s).pushes = s.pushes := rfl
@[simp] theorem writeStatus_life (v : Word) (s : State) : (writeStatus v s).life = s.life := rfl
@[simp] theorem writeStatus_fault (v : Word) (s : State) : (writeStatus v s).fault = s.fault := rfl
@[simp] theorem writeStatus_reply (v : Word) (s : State) : (writeStatus v s).reply = s.reply := rfl
@[simp] theorem writeStatus_inbox (v : Word) (s : State) : (writeStatus v s).inbox = s.inbox := rfl
@[simp] theorem writeStatus_canAllocate (v : Word) (s : State) : (writeStatus v s).canAllocate = s.canAllocate := rfl
@[simp] theorem writeStatus_busOrder (v : Word) (s : State) : (writeStatus v s).busOrder = s.busOrder := rfl

@[simp] theorem push_numLines (lv : Bool) (s : State) : (push lv s).numLines = s.numLines := rfl
@[simp] theorem push_status (lv : Bool) (s : State) : (push lv s).status = s.status := rfl
@[simp] theorem push_line (lv : Bool) (s : State) : (push lv s).line = s.line := rfl
@[simp] theorem push_out (lv : Bool) (s : State) : (push lv s).out = s.out := rfl
@[simp] theorem push_pushes (lv : Bool) (s : State) : (push lv s).pushes = s.pushes ++ [lv] := rfl
@[simp] theorem push_life (lv : Bool) (s : State) : (push lv s).life = s.life := rfl
@[simp] theorem push_fault (lv : Bool) (s : State) : (push lv s).fault = s.fault := rfl
@[simp] theorem push_reply (lv : Bool) (s : State) : (push lv s).reply = s.reply := rfl
@[simp] theorem push_inbox (lv : Bool) (s : State) : (push lv s).inbox = s.inbox := rfl
@[simp] theorem push_canAllocate (lv : Bool) (s : State) : (push lv s).canAllocate = s.canAllocate := rfl
@[simp] theorem push_busOrder (lv : Bool) (s : State) : (push lv s).busOrder = s.busOrder := rfl

@[simp] theorem aggregate_numLines (s : State) : (aggregate s).numLines = s.numLines := rfl
@[simp] theorem aggregate_status (s : State) : (aggregate s).status = s.status := rfl
@[simp] theorem aggregate_line (s : State) : (aggregate s).line = s.line := rfl
@[simp] theorem aggregate_out (s : State) : (aggregate s).out = level s := rfl
@[simp] theorem aggregate_pushes (s : State) : (aggregate s).pushes = s.pushes ++ [level s] := rfl
@[simp] theorem aggregate_life (s : State) : (aggregate s).life = s.life := rfl
@[simp] theorem aggregate_fault (s : State) : (aggregate s).fault = s.fault := rfl
@[simp] theorem aggregate_reply (s : State) : (aggregate s).reply = s.reply := rfl
@[simp] theorem aggregate_inbox (s : State) : (aggregate s).inbox = s.inbox := rfl
@[simp] theorem aggregate_canAllocate (s : State) : (aggregate s).canAllocate = s.canAllocate := rfl
@[simp] theorem aggregate_busOrder (s : State) : (aggregate s).busOrder = s.busOrder := rfl

@[simp] theorem construct_numLines (n : Nat) (s : State) : (construct n s).numLines = n := rfl
@[simp] theorem construct_status (n : Nat) (s : State) : (construct n s).status = 0 := rfl
@[simp] theorem construct_line (n : Nat) (s : State) : (construct n s).line = List.replicate n 0 := rfl
@[simp] theorem construct_out (n : Nat) (s : State) : (construct n s).out = false := rfl
@[simp] theorem construct_pushes (n : Nat) (s : State) : (construct n s).pushes = [] := rfl
@[simp] theorem construct_life (n : Nat) (s : State) : (construct n s).life = .alive := rfl
@[simp] theorem construct_fault (n : Nat) (s : State) : (construct n s).fault = none := rfl
@[simp] theorem construct_reply (n : Nat) (s : State) : (construct n s).reply = .nothing := rfl
@[simp] theorem construct_inbox (n : Nat) (s : State) : (construct n s).inbox = s.inbox := rfl
@[simp] theorem construct_canAllocate (n : Nat) (s : State) : (construct n s).canAllocate = s.canAllocate := rfl
@[simp] theorem construct_busOrder (n : Nat) (s : State) : (construct n s).busOrder = s.busOrder := rfl

end Sys2Proof.Machine
end

