-- ==== Sys2Proof/Laws/Ops.lean ====
section
/-! SUPPORT. What each shared operation can do, said once: if it answers, then so. -/

namespace Sys2Proof.Machine

/-! ### Line registers -/

theorem lineReg_eq_of_lt {s : State} {i : Nat} (h : i < s.line.length) : s.line[i]? = some (s.lineReg i) := by
  simp [State.lineReg, h]

theorem lineReg_of_le {s : State} {i : Nat} (h : s.line.length ≤ i) : s.lineReg i = 0 := by
  simp [State.lineReg, h]

theorem lineReg_congr {s t : State} (h : s.line = t.line) (i : Nat) : s.lineReg i = t.lineReg i := by
  simp [State.lineReg, h]

theorem lineReg_of_set {s t : State} {i : Nat} {b : Byte} (hi : i < s.line.length)
    (h : t.line = s.line.set i b) (j : Nat) : t.lineReg j = if j = i then b else s.lineReg j := by
  by_cases hj : j = i
  · subst hj
    simp [State.lineReg, h, hi]
  · rw [if_neg hj, State.lineReg, State.lineReg, h, List.getD_eq_getElem?_getD,
      List.getElem?_set_ne (Ne.symm hj), List.getD_eq_getElem?_getD]

/-! ### One bit of a byte -/

theorem getLsbD_setBit (pos : Nat) (x : Bool) (b : Byte) (hp : pos < 8) (k : Nat) (hk : k < 8) :
    (setBit pos x b).getLsbD k = if k = pos then x else b.getLsbD k := by
  have hbit : (1#8 <<< pos).getLsbD k = decide (k = pos) := by
    interval_cases pos <;> interval_cases k <;> rfl
  cases x
  · rw [setBit, if_neg Bool.false_ne_true, BitVec.getLsbD_and, BitVec.getLsbD_not, hbit]
    by_cases hkp : k = pos <;> simp [hkp, hk]
  · rw [setBit, if_pos rfl, BitVec.getLsbD_or, hbit]
    by_cases hkp : k = pos <;> simp [hkp]

theorem setBit_active_true (b : Byte) : setBit activePos true b = b ||| 0x01#8 := by
  simp [setBit, activePos]

theorem setBit_active_false (b : Byte) : setBit activePos false b = b &&& 0xFE#8 := by
  revert b
  decide

theorem setBit_enabled_true (b : Byte) : setBit enabledPos true b = b ||| 0x80#8 := by
  revert b
  decide

theorem setBit_enabled_false (b : Byte) : setBit enabledPos false b = b &&& 0x7F#8 := by
  revert b
  decide

/-! ### Register Bank -/

theorem readLine_of_lt {s : State} {i : Nat} (h : i < s.line.length) : readLine i s = .ok (s.lineReg i) := by
  simp [readLine, lineReg_eq_of_lt h]

theorem readLine_of_le {s : State} {i : Nat} (h : s.line.length ≤ i) :
    readLine i s = .error (.bankIndex i) := by
  simp [readLine, h]

theorem readLine_ok {s : State} {i : Nat} {b : Byte} (h : readLine i s = .ok b) :
    i < s.line.length ∧ b = s.lineReg i := by
  by_cases hi : i < s.line.length
  · rw [readLine_of_lt hi] at h
    exact ⟨hi, (Except.ok.inj h).symm⟩
  · rw [readLine_of_le (Nat.le_of_not_lt hi)] at h
    cases h

theorem writeLine_of_lt {s : State} {i : Nat} (b : Byte) (h : i < s.line.length) :
    writeLine i b s = .ok { s with line := s.line.set i b } := by
  simp [writeLine, h]

theorem writeLine_of_le {s : State} {i : Nat} (b : Byte) (h : s.line.length ≤ i) :
    writeLine i b s = .error (.bankIndex i) := by
  simp [writeLine, Nat.not_lt.mpr h]

theorem writeLine_ok {s t : State} {i : Nat} {b : Byte} (h : writeLine i b s = .ok t) :
    i < s.line.length ∧ t = { s with line := s.line.set i b } := by
  by_cases hi : i < s.line.length
  · rw [writeLine_of_lt b hi] at h
    exact ⟨hi, (Except.ok.inj h).symm⟩
  · rw [writeLine_of_le b (Nat.le_of_not_lt hi)] at h
    cases h

theorem writeLineBit_of_lt {s : State} {i : Nat} (pos : Nat) (x : Bool) (h : i < s.line.length) :
    writeLineBit i pos x s = .ok { s with line := s.line.set i (setBit pos x (s.lineReg i)) } := by
  simp [writeLineBit, readLine_of_lt h, writeLine_of_lt _ h]

theorem writeLineBit_of_le {s : State} {i : Nat} (pos : Nat) (x : Bool) (h : s.line.length ≤ i) :
    writeLineBit i pos x s = .error (.bankIndex i) := by
  simp [writeLineBit, readLine_of_le h]

theorem writeLineBit_ok {s t : State} {i pos : Nat} {x : Bool} (h : writeLineBit i pos x s = .ok t) :
    i < s.line.length ∧ t = { s with line := s.line.set i (setBit pos x (s.lineReg i)) } := by
  by_cases hi : i < s.line.length
  · rw [writeLineBit_of_lt pos x hi] at h
    exact ⟨hi, (Except.ok.inj h).symm⟩
  · rw [writeLineBit_of_le pos x (Nat.le_of_not_lt hi)] at h
    cases h

theorem ofBank_next {α : Type} {r : Except Fault α} {k : α → Host.Outcome State Fault Refusal} {t : State}
    (h : ofBank r k = .next t) : ∃ a, r = .ok a ∧ k a = .next t := by
  cases r with
  | ok a => exact ⟨a, rfl, h⟩
  | error f => cases h

/-! ### The fixed length of the line array: the one form the register bank has, kept by every operation -/

theorem writeStatus_sized {s : State} (v : Word) (h : s.Sized) : (writeStatus v s).Sized := h

theorem writeLine_sized {s t : State} {i : Nat} {b : Byte} (hs : s.Sized) (h : writeLine i b s = .ok t) :
    t.Sized := by
  obtain ⟨-, rfl⟩ := writeLine_ok h
  simpa [State.Sized] using hs

theorem writeLineBit_sized {s t : State} {i pos : Nat} {x : Bool} (hs : s.Sized)
    (h : writeLineBit i pos x s = .ok t) : t.Sized := by
  obtain ⟨-, rfl⟩ := writeLineBit_ok h
  simpa [State.Sized] using hs

theorem aggregate_sized {s : State} (h : s.Sized) : (aggregate s).Sized := h

theorem recordFault_sized {s : State} (r : FaultReason) (h : s.Sized) : (recordFault r s).Sized := h

theorem construct_sized (n : Nat) (s : State) : (construct n s).Sized := by
  simp [State.Sized]

theorem reset_sized : State.reset.Sized := by
  simp [State.reset, State.Sized]

/-! ### The checks -/

theorem served_iff (s : State) : served s = true ↔ s.Serving := by
  simp [served, State.Serving]

theorem creatable_iff (s : State) : creatable s = true ↔ s.life = .none ∧ s.fault = none := by
  simp [creatable]

theorem sizeSupported_iff (size : Nat) : sizeSupported size = true ↔ IsSize size := by
  constructor
  · intro h
    simp only [sizeSupported, codeOfSize] at h
    split at h <;> simp_all [IsSize]
  · rintro (rfl | rfl | rfl | rfl) <;> rfl

theorem sizeSupported_eq_wellFormed (size : Nat) : sizeSupported size = WellFormed.size size := by
  rw [Bool.eq_iff_iff, sizeSupported_iff]
  simp [WellFormed.size, or_assoc]

theorem whenServed_of {s : State} (h : s.Serving) (k : Host.Outcome State Fault Refusal) :
    whenServed s k = k := by
  simp [whenServed, (served_iff s).mpr h]

theorem whenServed_next {s t : State} {k : Host.Outcome State Fault Refusal} (h : whenServed s k = .next t) :
    s.Serving ∧ k = .next t := by
  unfold whenServed at h
  split at h
  · exact ⟨(served_iff s).mp ‹_›, h⟩
  · cases h

theorem whenCreatable_next {s t : State} {k : Host.Outcome State Fault Refusal}
    (h : whenCreatable s k = .next t) : (s.life = .none ∧ s.fault = none) ∧ k = .next t := by
  unfold whenCreatable at h
  split at h
  · exact ⟨(creatable_iff s).mp ‹_›, h⟩
  · cases h

theorem whenSized_of {size : Nat} (h : IsSize size) (k : Host.Outcome State Fault Refusal) :
    whenSized size k = k := by
  simp [whenSized, (sizeSupported_iff size).mpr h]

theorem whenSized_next {size : Nat} {t : State} {k : Host.Outcome State Fault Refusal}
    (h : whenSized size k = .next t) : IsSize size ∧ k = .next t := by
  unfold whenSized at h
  split at h
  · exact ⟨(sizeSupported_iff size).mp ‹_›, h⟩
  · cases h

/-! ### Targets and indices -/

theorem mmioTarget_line {n : Nat} {offset : Word} (h : 4 ≤ offset.toNat ∧ offset.toNat < n + 4) :
    mmioTarget n offset = .line (offset.toNat - 4) := by
  have h0 : offset.toNat ≠ 0 := by omega
  rw [mmioTarget, if_neg h0, if_pos h]

theorem mmioTarget_line_inv {n i : Nat} {offset : Word} (h : mmioTarget n offset = .line i) :
    4 ≤ offset.toNat ∧ offset.toNat < n + 4 ∧ i = offset.toNat - 4 := by
  unfold mmioTarget at h
  split at h
  · cases h
  · split at h
    · rename_i hb
      exact ⟨hb.1, hb.2, (Target.line.inj h).symm⟩
    · cases h

theorem mmioTarget_status_iff (n : Nat) (offset : Word) :
    mmioTarget n offset = .status ↔ offset.toNat = 0 := by
  unfold mmioTarget
  split
  · simp_all
  · split <;> simp_all

theorem mmioTarget_invalid_iff (n : Nat) (offset : Word) :
    mmioTarget n offset = .invalid ↔ (1 ≤ offset.toNat ∧ offset.toNat ≤ 3) ∨ n + 4 ≤ offset.toNat := by
  unfold mmioTarget
  split
  · simp_all
  · split
    · simp only [reduceCtorEq, false_iff]
      omega
    · simp only [true_iff]
      omega

theorem whenLineTarget_next {s t : State} {offset : Word} {k : Nat → Host.Outcome State Fault Refusal}
    (h : whenLineTarget s offset k = .next t) :
    4 ≤ offset.toNat ∧ offset.toNat < s.numLines + 4 ∧ k (offset.toNat - 4) = .next t := by
  unfold whenLineTarget at h
  split at h
  · rename_i i hi
    obtain ⟨h1, h2, rfl⟩ := mmioTarget_line_inv hi
    exact ⟨h1, h2, h⟩
  · cases h
  · cases h

theorem whenInvalidTarget_next {s t : State} {offset : Word} {k : Host.Outcome State Fault Refusal}
    (h : whenInvalidTarget s offset k = .next t) :
    ((1 ≤ offset.toNat ∧ offset.toNat ≤ 3) ∨ s.numLines + 4 ≤ offset.toNat) ∧ k = .next t := by
  unfold whenInvalidTarget at h
  split at h
  · exact ⟨(mmioTarget_invalid_iff _ _).mp ‹_›, h⟩
  · cases h
  · cases h

theorem managementIndex_some {n k : Nat} {i : Word} (h : managementIndex n i = some k) :
    0 ≤ i.toInt ∧ i.toInt < n ∧ k = i.toInt.toNat := by
  unfold managementIndex at h
  split at h
  · rename_i hb
    exact ⟨hb.1, hb.2, (Option.some.inj h).symm⟩
  · cases h

theorem managementIndex_none {n : Nat} {i : Word} (h : managementIndex n i = none) :
    ¬(0 ≤ i.toInt ∧ i.toInt < n) := by
  unfold managementIndex at h
  split at h
  · cases h
  · assumption

/-! ### The datum on the bus -/

/-- Lanes are there only for a datum, and they are its lanes in the byte order of the bus. -/
theorem replyLanes_some {size : Nat} {s : State} {lanes : List Byte} (h : replyLanes size s = some lanes) :
    ∃ v, s.reply = .data v ∧ lanes = busLanes s.busOrder size v := by
  unfold replyLanes at h
  split at h
  · exact ⟨_, ‹_›, (Option.some.inj h).symm⟩
  all_goals cases h

theorem replyLanes_of_data (size : Nat) (v : Word) (s : State) :
    replyLanes size { s with reply := .data v } = some (busLanes s.busOrder size v) := rfl

/-! ### Line signals and management -/

/-- A line signal that answers a next state has recorded a contract violation, or has written ACTIVE of its line and
recomputed the output. -/
theorem lineSignal_next {i : Word} {x : Bool} {s t : State} (h : lineSignal i x s = .next t) :
    (s.numLines ≤ i.toNat ∧ t = recordFault (.contractViolation i.toNat) s) ∨
    (i.toNat < s.numLines ∧ i.toNat < s.line.length ∧
      t = setReply .nothing (aggregate
        { s with line := s.line.set i.toNat (setBit activePos x (s.lineReg i.toNat)) })) := by
  unfold lineSignal lineIndex at h
  by_cases hi : i.toNat < s.numLines
  · simp only [hi, if_true] at h
    obtain ⟨a, ha, hk⟩ := ofBank_next h
    obtain ⟨hl, rfl⟩ := writeLineBit_ok ha
    exact .inr ⟨hi, hl, (Host.Outcome.next.inj hk).symm⟩
  · simp only [hi, if_false] at h
    exact .inl ⟨Nat.le_of_not_lt hi, (Host.Outcome.next.inj h).symm⟩

/-- A management request that answers a next state has been rejected with nothing changed, or has written its one bit
and recomputed the output. -/
theorem manage_next {i : Word} {pos : Nat} {x : Bool} {s t : State} (h : manage i pos x s = .next t) :
    (¬(0 ≤ i.toInt ∧ i.toInt < s.numLines) ∧ t = setReply .invalidArgument s) ∨
    ((0 ≤ i.toInt ∧ i.toInt < s.numLines) ∧ i.toInt.toNat < s.line.length ∧
      t = setReply .ok (aggregate
        { s with line := s.line.set i.toInt.toNat (setBit pos x (s.lineReg i.toInt.toNat)) })) := by
  unfold manage at h
  cases hm : managementIndex s.numLines i with
  | none =>
    simp only [hm] at h
    exact .inl ⟨managementIndex_none hm, (Host.Outcome.next.inj h).symm⟩
  | some k =>
    simp only [hm] at h
    obtain ⟨h1, h2, rfl⟩ := managementIndex_some hm
    obtain ⟨a, ha, hk⟩ := ofBank_next h
    obtain ⟨hl, rfl⟩ := writeLineBit_ok ha
    exact .inr ⟨⟨h1, h2⟩, hl, (Host.Outcome.next.inj hk).symm⟩

end Sys2Proof.Machine
end

