-- ==== Sys2Proof/Laws/Exec.lean ====
section
/-! SUPPORT. What each meaning can do, said once: if it answers a next state, then this one. -/

namespace Sys2Proof.Machine

theorem execMmioReadStatus_next {size : Nat} {s t : State} (h : execMmioReadStatus size s = .next t) :
    s.Serving ∧ IsSize size ∧ t = setReply (.data (s.status.setWidth 64 &&& mask size)) (aggregate s) := by
  obtain ⟨hs, h⟩ := whenServed_next h
  obtain ⟨hz, h⟩ := whenSized_next h
  exact ⟨hs, hz, (Host.Outcome.next.inj h).symm⟩

theorem execMmioReadLine_next {size : Nat} {offset : Word} {s t : State}
    (h : execMmioReadLine size offset s = .next t) :
    s.Serving ∧ IsSize size ∧ 4 ≤ offset.toNat ∧ offset.toNat < s.numLines + 4 ∧
      offset.toNat - 4 < s.line.length ∧
      t = setReply (.data ((s.lineReg (offset.toNat - 4)).setWidth 64 &&& 0xFF#64)) (aggregate s) := by
  obtain ⟨hs, h⟩ := whenServed_next h
  obtain ⟨hz, h⟩ := whenSized_next h
  obtain ⟨h1, h2, h⟩ := whenLineTarget_next h
  obtain ⟨b, hb, h⟩ := ofBank_next h
  obtain ⟨hl, rfl⟩ := readLine_ok hb
  exact ⟨hs, hz, h1, h2, hl, (Host.Outcome.next.inj h).symm⟩

theorem execMmioReadInvalid_next {size : Nat} {offset : Word} {s t : State}
    (h : execMmioReadInvalid size offset s = .next t) :
    s.Serving ∧ IsSize size ∧
      ((1 ≤ offset.toNat ∧ offset.toNat ≤ 3) ∨ s.numLines + 4 ≤ offset.toNat) ∧ t = setReply (.data 0) s := by
  obtain ⟨hs, h⟩ := whenServed_next h
  obtain ⟨hz, h⟩ := whenSized_next h
  obtain ⟨ho, h⟩ := whenInvalidTarget_next h
  exact ⟨hs, hz, ho, (Host.Outcome.next.inj h).symm⟩

theorem execMmioWriteStatus_next {size : Nat} {value : Word} {s t : State}
    (h : execMmioWriteStatus size value s = .next t) :
    s.Serving ∧ IsSize size ∧ t = setReply .nothing (aggregate (writeStatus (compose value size) s)) := by
  obtain ⟨hs, h⟩ := whenServed_next h
  obtain ⟨hz, h⟩ := whenSized_next h
  exact ⟨hs, hz, (Host.Outcome.next.inj h).symm⟩

theorem execMmioWriteLine_next {size : Nat} {offset value : Word} {s t : State}
    (h : execMmioWriteLine size offset value s = .next t) :
    s.Serving ∧ IsSize size ∧ 4 ≤ offset.toNat ∧ offset.toNat < s.numLines + 4 ∧
      offset.toNat - 4 < s.line.length ∧
      t = setReply .nothing (aggregate { s with line := s.line.set (offset.toNat - 4) (byteAt value 0) }) := by
  obtain ⟨hs, h⟩ := whenServed_next h
  obtain ⟨hz, h⟩ := whenSized_next h
  obtain ⟨h1, h2, h⟩ := whenLineTarget_next h
  obtain ⟨u, hu, h⟩ := ofBank_next h
  obtain ⟨hl, rfl⟩ := writeLine_ok hu
  exact ⟨hs, hz, h1, h2, hl, (Host.Outcome.next.inj h).symm⟩

theorem execMmioWriteInvalid_next {size : Nat} {offset value : Word} {s t : State}
    (h : execMmioWriteInvalid size offset value s = .next t) :
    s.Serving ∧ IsSize size ∧
      ((1 ≤ offset.toNat ∧ offset.toNat ≤ 3) ∨ s.numLines + 4 ≤ offset.toNat) ∧ t = setReply .nothing s := by
  obtain ⟨hs, h⟩ := whenServed_next h
  obtain ⟨hz, h⟩ := whenSized_next h
  obtain ⟨ho, h⟩ := whenInvalidTarget_next h
  exact ⟨hs, hz, ho, (Host.Outcome.next.inj h).symm⟩

/-- What LINE_RAISE and LINE_LOWER can do: `lineSignal_next` in a serving block. -/
theorem whenServed_lineSignal_next {i : Word} {x : Bool} {s t : State}
    (h : whenServed s (lineSignal i x s) = .next t) :
    s.Serving ∧
    ((s.numLines ≤ i.toNat ∧ t = recordFault (.contractViolation i.toNat) s) ∨
     (i.toNat < s.numLines ∧ i.toNat < s.line.length ∧
      t = setReply .nothing (aggregate
        { s with line := s.line.set i.toNat (setBit activePos x (s.lineReg i.toNat)) }))) := by
  obtain ⟨hs, h⟩ := whenServed_next h
  exact ⟨hs, lineSignal_next h⟩

/-- What the four management operations can do: `manage_next` in a serving block. -/
theorem whenServed_manage_next {i : Word} {pos : Nat} {x : Bool} {s t : State}
    (h : whenServed s (manage i pos x s) = .next t) :
    s.Serving ∧
    ((¬(0 ≤ i.toInt ∧ i.toInt < s.numLines) ∧ t = setReply .invalidArgument s) ∨
     ((0 ≤ i.toInt ∧ i.toInt < s.numLines) ∧ i.toInt.toNat < s.line.length ∧
      t = setReply .ok (aggregate
        { s with line := s.line.set i.toInt.toNat (setBit pos x (s.lineReg i.toInt.toNat)) }))) := by
  obtain ⟨hs, h⟩ := whenServed_next h
  exact ⟨hs, manage_next h⟩

theorem execCreate_next {n : Word} {s t : State} (h : execCreate n s = .next t) :
    (s.life = .none ∧ s.fault = none) ∧
    ((lineCountAllowed n = true ∧ s.canAllocate = true ∧ t = construct n.toNat s) ∨
     ((lineCountAllowed n && s.canAllocate) = false ∧ t = recordFault .constructionFailure s)) := by
  obtain ⟨hs, h⟩ := whenCreatable_next h
  refine ⟨hs, ?_⟩
  split at h
  · rename_i hc
    exact .inl ⟨(Bool.and_eq_true_iff.mp hc).1, (Bool.and_eq_true_iff.mp hc).2, (Host.Outcome.next.inj h).symm⟩
  · rename_i hc
    exact .inr ⟨Bool.eq_false_iff.mpr hc, (Host.Outcome.next.inj h).symm⟩

theorem execDestroy_next {s t : State} (h : execDestroy s = .next t) :
    s.Serving ∧ t = { s with life := .destroyed, reply := .nothing } := by
  obtain ⟨hs, h⟩ := whenServed_next h
  exact ⟨hs, (Host.Outcome.next.inj h).symm⟩

/-- What a step can do: nothing, with no request, or what the fetched instruction does with its arrival taken. -/
theorem step_next {s t : State} (h : step s = .next t) :
    (fetch s.numLines s.busOrder s.inbox = .idle ∧ t = s) ∨
    ∃ i rest, fetch s.numLines s.busOrder s.inbox = .run i rest ∧ exec i (setInbox rest s) = .next t := by
  unfold step at h
  split at h
  · exact .inl ⟨‹_›, (Host.Outcome.next.inj h).symm⟩
  · exact .inr ⟨_, _, ‹_›, h⟩
  · cases h
  · cases h

theorem served_setInbox (rest : List Arrival) (s : State) : served (setInbox rest s) = served s := rfl

/-- Bit `k` of `mask(size)`: set exactly below the access's width (R8). -/
theorem getLsbD_mask (size k : Nat) : (mask size).getLsbD k = (decide (k < 64) && decide (k < 8 * size)) := by
  rw [mask, BitVec.getLsbD_ofNat, Nat.testBit_two_pow_sub_one]

end Sys2Proof.Machine
end

