-- ==== Sys2Proof/Laws/PerInstr.lean ====
section
/-! SUPPORT. A fact about every instruction as syntax: the header byte of its encoding is one of its row of
spec/opcode_table.json, and its encoding has the row's number of operand words (spec 30_encoding.md R42, R43). -/

namespace Sys2Proof.Laws

/-- The "mask" of an instruction's row. -/
def rowMask : Instr → Byte
  | .mmioReadStatus _ => 0xFC
  | .mmioReadLine _ _ => 0xFC
  | .mmioReadInvalid _ _ => 0xFC
  | .mmioWriteStatus _ _ => 0xFC
  | .mmioWriteLine _ _ _ => 0xFC
  | .mmioWriteInvalid _ _ _ => 0xFC
  | .lineRaise _ => 0xFF
  | .lineLower _ => 0xFF
  | .setLine _ => 0xFF
  | .clearLine _ => 0xFF
  | .enableLine _ => 0xFF
  | .disableLine _ => 0xFF
  | .create _ => 0xFF
  | .destroy => 0xFF

/-- The "match" of an instruction's row. -/
def rowMatch : Instr → Byte
  | .mmioReadStatus _ => 0x10
  | .mmioReadLine _ _ => 0x10
  | .mmioReadInvalid _ _ => 0x10
  | .mmioWriteStatus _ _ => 0x20
  | .mmioWriteLine _ _ _ => 0x20
  | .mmioWriteInvalid _ _ _ => 0x20
  | .lineRaise _ => 0x38
  | .lineLower _ => 0x30
  | .setLine _ => 0x40
  | .clearLine _ => 0x50
  | .enableLine _ => 0x60
  | .disableLine _ => 0x70
  | .create _ => 0x80
  | .destroy => 0x90

/-- How many 8-byte operands an instruction's packed request has. -/
def rowOperands : Instr → Nat
  | .mmioReadStatus _ => 1
  | .mmioReadLine _ _ => 1
  | .mmioReadInvalid _ _ => 1
  | .mmioWriteStatus _ _ => 2
  | .mmioWriteLine _ _ _ => 2
  | .mmioWriteInvalid _ _ _ => 2
  | .lineRaise _ => 1
  | .lineLower _ => 1
  | .setLine _ => 1
  | .clearLine _ => 1
  | .enableLine _ => 1
  | .disableLine _ => 1
  | .create _ => 1
  | .destroy => 0

/-- A well-formed instruction has an encoding, whose header is of its row and whose length is its row's. -/
def HeaderRow.Statement (i : Instr) : Prop :=
  ∀ numLines, WellFormed numLines i = true →
    ∃ h ops, encode i = some (h :: ops) ∧ h &&& rowMask i = rowMatch i ∧ ops.length = 8 * rowOperands i

theorem length_bytesOfWord (k : Nat) (w : Word) : (bytesOfWord k w).length = k := by
  induction k generalizing w with
  | zero => rfl
  | succ k ih => simp [bytesOfWord, ih]

theorem codeOfSize_of_wellFormed {size : Nat} (h : WellFormed.size size = true) :
    ∃ sz, codeOfSize size = some sz :=
  Option.isSome_iff_exists.mp ((Machine.sizeSupported_eq_wellFormed size).trans h)

theorem read_header (sz : BitVec 2) : makeHeader .mmioRead false sz &&& 0xFC = 0x10 := by
  revert sz
  decide

theorem write_header (sz : BitVec 2) : makeHeader .mmioWrite false sz &&& 0xFC = 0x20 := by
  revert sz
  decide

theorem headerRow_of_read {i : Instr} {offset : Word} {size : Nat} (hr : requestOf i = .mmioRead offset size)
    (hm : rowMask i = 0xFC) (hv : rowMatch i = 0x10) (ho : rowOperands i = 1)
    (h : WellFormed.size size = true) :
    ∃ h ops, encode i = some (h :: ops) ∧ h &&& rowMask i = rowMatch i ∧ ops.length = 8 * rowOperands i := by
  obtain ⟨sz, hz⟩ := codeOfSize_of_wellFormed h
  refine ⟨makeHeader .mmioRead false sz, bytesOfWord 8 offset, ?_, ?_, ?_⟩
  · simp [encode, hr, pack, hz]
  · rw [hm, hv]
    exact read_header sz
  · simp [length_bytesOfWord, ho]

theorem headerRow_of_write {i : Instr} {offset value : Word} {size : Nat}
    (hr : requestOf i = .mmioWrite offset size value) (hm : rowMask i = 0xFC) (hv : rowMatch i = 0x20)
    (ho : rowOperands i = 2) (h : WellFormed.size size = true) :
    ∃ h ops, encode i = some (h :: ops) ∧ h &&& rowMask i = rowMatch i ∧ ops.length = 8 * rowOperands i := by
  obtain ⟨sz, hz⟩ := codeOfSize_of_wellFormed h
  refine ⟨makeHeader .mmioWrite false sz, bytesOfWord 8 offset ++ bytesOfWord 8 value, ?_, ?_, ?_⟩
  · simp [encode, hr, pack, hz]
  · rw [hm, hv]
    exact write_header sz
  · simp [length_bytesOfWord, ho]

theorem HeaderRow.mmioReadStatus (size : Nat) : HeaderRow.Statement (.mmioReadStatus size) := by
  intro numLines h
  exact headerRow_of_read rfl rfl rfl rfl h

theorem HeaderRow.mmioReadLine (size : Nat) (offset : Word) : HeaderRow.Statement (.mmioReadLine size offset) := by
  intro numLines h
  exact headerRow_of_read rfl rfl rfl rfl (Bool.and_eq_true_iff.mp h).1

theorem HeaderRow.mmioReadInvalid (size : Nat) (offset : Word) : HeaderRow.Statement (.mmioReadInvalid size offset) := by
  intro numLines h
  exact headerRow_of_read rfl rfl rfl rfl (Bool.and_eq_true_iff.mp h).1

theorem HeaderRow.mmioWriteStatus (size : Nat) (value : Word) : HeaderRow.Statement (.mmioWriteStatus size value) := by
  intro numLines h
  exact headerRow_of_write rfl rfl rfl rfl h

theorem HeaderRow.mmioWriteLine (size : Nat) (offset value : Word) : HeaderRow.Statement (.mmioWriteLine size offset value) := by
  intro numLines h
  exact headerRow_of_write rfl rfl rfl rfl (Bool.and_eq_true_iff.mp h).1

theorem HeaderRow.mmioWriteInvalid (size : Nat) (offset value : Word) : HeaderRow.Statement (.mmioWriteInvalid size offset value) := by
  intro numLines h
  exact headerRow_of_write rfl rfl rfl rfl (Bool.and_eq_true_iff.mp h).1

theorem HeaderRow.lineRaise (i : Word) : HeaderRow.Statement (.lineRaise i) := fun _ _ =>
  ⟨makeHeader .lineSignal true 0, bytesOfWord 8 i, rfl, by simp only [rowMask, rowMatch]; decide, length_bytesOfWord 8 i⟩

theorem HeaderRow.lineLower (i : Word) : HeaderRow.Statement (.lineLower i) := fun _ _ =>
  ⟨makeHeader .lineSignal false 0, bytesOfWord 8 i, rfl, by simp only [rowMask, rowMatch]; decide, length_bytesOfWord 8 i⟩

theorem HeaderRow.setLine (i : Word) : HeaderRow.Statement (.setLine i) := fun _ _ =>
  ⟨makeHeader .setLine false 0, bytesOfWord 8 i, rfl, by simp only [rowMask, rowMatch]; decide, length_bytesOfWord 8 i⟩

theorem HeaderRow.clearLine (i : Word) : HeaderRow.Statement (.clearLine i) := fun _ _ =>
  ⟨makeHeader .clearLine false 0, bytesOfWord 8 i, rfl, by simp only [rowMask, rowMatch]; decide, length_bytesOfWord 8 i⟩

theorem HeaderRow.enableLine (i : Word) : HeaderRow.Statement (.enableLine i) := fun _ _ =>
  ⟨makeHeader .enableLine false 0, bytesOfWord 8 i, rfl, by simp only [rowMask, rowMatch]; decide, length_bytesOfWord 8 i⟩

theorem HeaderRow.disableLine (i : Word) : HeaderRow.Statement (.disableLine i) := fun _ _ =>
  ⟨makeHeader .disableLine false 0, bytesOfWord 8 i, rfl, by simp only [rowMask, rowMatch]; decide, length_bytesOfWord 8 i⟩

theorem HeaderRow.create (i : Word) : HeaderRow.Statement (.create i) := fun _ _ =>
  ⟨makeHeader .create false 0, bytesOfWord 8 i, rfl, by simp only [rowMask, rowMatch]; decide, length_bytesOfWord 8 i⟩

theorem HeaderRow.destroy : HeaderRow.Statement .destroy := fun _ _ =>
  ⟨makeHeader .destroy false 0, [], rfl, by decide, rfl⟩

end Sys2Proof.Laws
end

