-- ==== Sys2Proof/Tests/Slice0.lean ====
section
/-! SUPPORT. Small tests: what WellFormed refuses, the decoding of written-out requests (spec 30_encoding.md, opcode map;
spec 95_test_vectors.md L3), one step of each request on a small block (expected values from spec 95_test_vectors.md
L1, L2), and for each statement with hypotheses a state and operands that meet them. -/

namespace Sys2Proof.Tests

open Sys2Proof Sys2Proof.Machine

/-! ### Helpers -/

/-- A live block with these registers, its output as given, and no push so far. -/
def block (status : StatusWord) (line : List Byte) (out : Bool) : State :=
  { State.reset with numLines := line.length, status := status, line := line, out := out }

/-- What a next state shows, if the outcome is one. -/
def onNext {α : Type} (o : Host.Outcome State Fault Refusal) (f : State → α) : Option α :=
  match o with
  | .next t => some (f t)
  | .fault _ => none
  | .refused _ => none

/-- The refusal, if the outcome is one. -/
def refusal (o : Host.Outcome State Fault Refusal) : Option Refusal :=
  match o with
  | .next _ => none
  | .fault _ => none
  | .refused r => some r

/-- An 8-byte operand below 256. -/
def op (b : Byte) : List Byte := [b, 0, 0, 0, 0, 0, 0, 0]

/-- Four lines, global enable set, line 2 active and enabled, line 3 with reserved bits; the output is 1. -/
def busy : State := { block 1 [0x01, 0x80, 0x81, 0x7E] true with pushes := [true] }

/-- Four lines, all 0, global enable set. -/
def quiet : State := block 1 [0, 0, 0, 0] false

/-- The block that is not created yet. -/
def unborn : State := State.uncreated

/-- The block that is not created yet, where the line array cannot be allocated. -/
def starved : State := { State.uncreated with canAllocate := false }

/-- `busy` after a contract violation. -/
def faulted : State := { busy with fault := some (.contractViolation 4) }

/-! ### WellFormed -/

theorem test_wellFormed_refuses_size_3 : WellFormed 4 (.mmioReadStatus 3) = false := by decide
theorem test_wellFormed_refuses_write_size_0 : WellFormed 4 (.mmioWriteStatus 0 1) = false := by decide
theorem test_wellFormed_refuses_line_size_5 : WellFormed 4 (.mmioReadLine 5 4) = false := by decide
theorem test_wellFormed_refuses_line_offset_3 : WellFormed 4 (.mmioReadLine 1 3) = false := by decide
theorem test_wellFormed_refuses_line_offset_8 : WellFormed 4 (.mmioWriteLine 1 8 0) = false := by decide
theorem test_wellFormed_refuses_invalid_offset_0 : WellFormed 4 (.mmioReadInvalid 1 0) = false := by decide
theorem test_wellFormed_refuses_invalid_offset_7 : WellFormed 4 (.mmioWriteInvalid 1 7 0) = false := by decide
theorem test_wellFormed_takes_the_edges : WellFormed 4 (.mmioReadLine 8 7) = true ∧
    WellFormed 4 (.mmioReadInvalid 8 8) = true ∧ WellFormed 4 (.mmioWriteInvalid 2 3 0) = true := by decide

/-! ### Decoding: the header bytes are written out from the opcode map of 30_encoding.md -/

theorem test_decode_readStatus : decode 4 (0b00010010#8 :: op 0) = .ok (.mmioReadStatus 4, []) := by decide
theorem test_decode_readLine : decode 4 (0b00010011#8 :: op 7) = .ok (.mmioReadLine 8 7, []) := by decide
theorem test_decode_readInvalid : decode 4 (0b00010000#8 :: op 8) = .ok (.mmioReadInvalid 1 8, []) := by decide
theorem test_decode_writeStatus : decode 2
    (0b00100011#8 :: (op 0 ++ [0xF1, 0xDE, 0xBC, 0x9A, 0x78, 0x56, 0x34, 0x12])) =
      .ok (.mmioWriteStatus 8 0x123456789ABCDEF1, []) := by decide
theorem test_decode_writeLine : decode 2
    (0b00100010#8 :: (op 4 ++ [0x81, 0x81, 0x81, 0x81, 0, 0, 0, 0])) =
      .ok (.mmioWriteLine 4 4 0x81818181, []) := by decide
theorem test_decode_writeInvalid : decode 4 (0b00100000#8 :: (op 1 ++ op 0xFF)) =
    .ok (.mmioWriteInvalid 1 1 0xFF, []) := by decide
theorem test_decode_lineRaise : decode 2 (0b00111000#8 :: op 1) = .ok (.lineRaise 1, []) := by decide
theorem test_decode_lineLower : decode 2 (0b00110000#8 :: op 1) = .ok (.lineLower 1, []) := by decide
theorem test_decode_setLine : decode 4 (0b01000000#8 :: op 2) = .ok (.setLine 2, []) := by decide
theorem test_decode_clearLine : decode 4 (0b01010000#8 :: op 2) = .ok (.clearLine 2, []) := by decide
theorem test_decode_enableLine : decode 4 (0b01100000#8 :: List.replicate 8 0xFF#8) =
    .ok (.enableLine (-1), []) := by decide
theorem test_decode_disableLine : decode 4 (0b01110000#8 :: op 2) = .ok (.disableLine 2, []) := by decide
theorem test_decode_create : decode 4 (0b10000000#8 :: op 4) = .ok (.create 4, []) := by decide
theorem test_decode_destroy : decode 4 [0b10010000#8, 0x10#8] = .ok (.destroy, [0x10]) := by decide
theorem test_decode_refuses_kind_A : decode 4 (0xA0#8 :: op 0) = .error (.reservedEncoding 0xA0) := by decide
theorem test_decode_refuses_bit_2 : decode 4 (0x14#8 :: op 0) = .error (.reservedEncoding 0x14) := by decide
theorem test_decode_refuses_level : decode 4 (0x48#8 :: op 0) = .error (.reservedEncoding 0x48) := by decide
theorem test_decode_refuses_size : decode 4 (0x31#8 :: op 0) = .error (.reservedEncoding 0x31) := by decide
theorem test_decode_truncated : decode 4 [0x10, 0, 0, 0, 0, 0, 0, 0] = .error .truncated := by decide
theorem test_tableWord_header_only : decodeTableWord 8 0x13 = some (.mmioReadStatus 8) := by decide
theorem test_tableWord_destroy_after_reset :
    onNext (step (State.reset.withFetchWord 8 0x90)) (fun t => t.life) = some .destroyed := by decide

/-! ### One step of each request: spec 95_test_vectors.md L2, NUM_LINES = 4 -/

theorem test_rd2_status : onNext (exec (.mmioReadStatus 2) (block 0xDEADBEEF [0, 0, 0, 0] false))
    (fun t => (t.reply, t.pushes)) = some (.data 0xBEEF, [false]) := by decide
theorem test_rd8_status : onNext (exec (.mmioReadStatus 8) (block 0xDEADBEEF [0, 0, 0, 0] false))
    (fun t => t.reply) = some (.data 0xDEADBEEF) := by decide
theorem test_rd8_line_3 : onNext (exec (.mmioReadLine 8 7) (block 0 [0, 0, 0, 0x81] false))
    (fun t => (t.reply, t.pushes)) = some (.data 0x81, [false]) := by decide
theorem test_rd4_line_0 : onNext (exec (.mmioReadLine 4 4) (block 0 [0x7E, 0x81, 0, 0] false))
    (fun t => t.reply) = some (.data 0x7E) := by decide
theorem test_rd4_offset_3 : onNext (exec (.mmioReadInvalid 4 3) (block 0xFFFFFFFF [0xFF, 0xFF, 0xFF, 0xFF] true))
    (fun t => (t.reply, t.pushes)) = some (.data 0, []) := by decide
theorem test_rd8_last_offset : onNext (exec (.mmioReadInvalid 8 0xFFFFFFFFFFFFFFFF)
    (block 0xFFFFFFFF [0xFF, 0xFF, 0xFF, 0xFF] true)) (fun t => (t.reply, t.pushes)) = some (.data 0, []) := by decide
theorem test_wr2_status : onNext (exec (.mmioWriteStatus 2 0xFFFF0001) (block 0xDEADBEEF [0, 0, 0, 0] false))
    (fun t => (t.status, t.pushes)) = some (1, [false]) := by decide
theorem test_wr4_status_raises : onNext (exec (.mmioWriteStatus 4 1) (block 0 [0x81, 0, 0, 0] false))
    (fun t => (t.status, t.pushes)) = some (1, [true]) := by decide
theorem test_wr4_line_1 : onNext (exec (.mmioWriteLine 4 5 0x81818181) quiet)
    (fun t => (t.line, t.pushes)) = some ([0, 0x81, 0, 0], [true]) := by decide
theorem test_wr2_line_0 : onNext (exec (.mmioWriteLine 2 4 0x8100) quiet)
    (fun t => (t.line, t.pushes)) = some ([0, 0, 0, 0], [false]) := by decide
theorem test_wr4_offset_8 : onNext (exec (.mmioWriteInvalid 4 8 0) (block 1 [0xFF, 0xFF, 0xFF, 0xFF] true))
    (fun t => (t.line, t.pushes)) = some ([0xFF, 0xFF, 0xFF, 0xFF], []) := by decide
theorem test_raise_keeps_reserved : onNext (exec (.lineRaise 0) (block 1 [0x7E, 0, 0, 0] false))
    (fun t => (t.line, t.out)) = some ([0x7F, 0, 0, 0], false) := by decide
theorem test_raise_out_of_range : onNext (exec (.lineRaise 4) quiet)
    (fun t => (t.fault, t.pushes)) = some (some (.contractViolation 4), []) := by decide
theorem test_lower_leaves_line_1 : onNext (exec (.lineLower 0) (block 1 [0x81, 0x81, 0, 0] true))
    (fun t => (t.line, t.pushes)) = some ([0x80, 0x81, 0, 0], [true]) := by decide
theorem test_setLine : onNext (exec (.setLine 0) (block 1 [0x7E, 0, 0, 0] false))
    (fun t => (t.line, t.reply)) = some ([0x7F, 0, 0, 0], .ok) := by decide
theorem test_clearLine : onNext (exec (.clearLine 0) (block 1 [0xFF, 0, 0, 0] true))
    (fun t => (t.line, t.pushes)) = some ([0xFE, 0, 0, 0], [false]) := by decide
theorem test_clearLine_minus_1 : onNext (exec (.clearLine (-1)) quiet)
    (fun t => (t.reply, t.pushes)) = some (.invalidArgument, []) := by decide
theorem test_enableLine : onNext (exec (.enableLine 0) (block 1 [0x01, 0, 0, 0] false))
    (fun t => (t.line, t.pushes)) = some ([0x81, 0, 0, 0], [true]) := by decide
theorem test_enableLine_10 : onNext (exec (.enableLine 10) quiet)
    (fun t => (t.reply, t.line)) = some (.invalidArgument, [0, 0, 0, 0]) := by decide
theorem test_disableLine : onNext (exec (.disableLine 0) (block 1 [0xFF, 0, 0, 0] true))
    (fun t => (t.line, t.pushes)) = some ([0x7F, 0, 0, 0], [false]) := by decide
theorem test_create_4 : onNext (exec (.create 4) unborn)
    (fun t => (t.line, t.life)) = some ([0, 0, 0, 0], .alive) := by decide
theorem test_create_0 : onNext (exec (.create 0) unborn)
    (fun t => (t.fault, t.life)) = some (some .constructionFailure, .none) := by decide
theorem test_destroy : onNext (exec .destroy busy) (fun t => (t.life, t.pushes)) = some (.destroyed, [true]) := by decide
theorem test_bus_big_endian_write : onNext
    (step { quiet with busOrder := .big, inbox := [.busWrite 0 [0x12, 0x34, 0x56, 0x78]] })
    (fun t => (t.status, t.inbox)) = some (0x12345678, []) := by decide
theorem test_bus_big_endian_read : onNext (exec (.mmioReadStatus 2) { block 0xDEADBEEF [0] false with busOrder := .big })
    (fun t => replyLanes 2 t) = some (some [0xBE, 0xEF]) := by decide
theorem test_rd3_is_refused : refusal (step { quiet with inbox := [.call (.mmioRead 0 3)] }) =
    some (.unsupportedSize 3) := by decide
theorem test_level_2_is_refused : refusal (step { quiet with inbox := [.call (.lineSignal 0 2)] }) =
    some (.badLevel 2) := by decide
theorem test_create_twice_is_refused : refusal (exec (.create 4) quiet) = some .noInstance := by decide
theorem test_stream_runs_in_order : onNext
    (step { quiet with inbox := [.bytes ((0x38#8 :: op 1) ++ (0x30#8 :: op 1))] })
    (fun t => (t.line, t.inbox)) = some ([0, 1, 0, 0], [.bytes (0x30#8 :: op 1)]) := by decide

/-! ### Witnesses: states and operands that meet the hypotheses of the statements -/

theorem witness_busy_inv : busy.Inv :=
  ⟨by decide, fun _ => by decide, by decide, by decide, by decide, by decide⟩

/-- ReadStatusReturnsMaskedStatus, WriteStatusReplacesRegister, StatusRoundTrip: every size, with the output fresh. -/
theorem witness_status_access : busy.Serving ∧ busy.Sized ∧ IsSize 1 ∧ IsSize 2 ∧ IsSize 4 ∧ IsSize 8 ∧
    busy.out = busy.outputFormula ∧ (2#64).getLsbD 0 = false := by decide

/-- ReadLineReturnsOneRegister, WriteLineReplacesOneRegister, LineRoundTrip: the first and the last line. -/
theorem witness_line_access : busy.Serving ∧ busy.Sized ∧ IsSize 4 ∧
    (4 ≤ (4#64).toNat ∧ (4#64).toNat < busy.numLines + 4) ∧
    (4 ≤ (7#64).toNat ∧ (7#64).toNat < busy.numLines + 4) := by decide

/-- ReadInvalidReturnsZero, WriteInvalidChangesNothing: offsets 1, 2, 3 and the first one past the lines. -/
theorem witness_invalid_access : busy.Serving ∧ IsSize 1 ∧ (1#64).toNat = 1 ∧ (2#64).toNat = 2 ∧ (3#64).toNat = 3 ∧
    busy.numLines + 4 ≤ (8#64).toNat := by decide

/-- LineRaiseSetsActive, LineLowerClearsActive: a line whose ACTIVE is set and one whose is clear. -/
theorem witness_lineSignal : busy.Serving ∧ busy.Sized ∧ (2#64).toNat < busy.numLines ∧
    (3#64).toNat < busy.numLines ∧ (busy.lineReg 2).getLsbD 0 = true ∧ (busy.lineReg 3).getLsbD 0 = false := by decide

/-- SetLineSetsActive, ClearLineClearsActive, EnableLineSetsEnabled, DisableLineClearsEnabled: valid indices 0 and 3,
invalid ones 4 and -1, and a line that is ACTIVE with GLOBAL_ENABLED set. -/
theorem witness_manage : busy.Serving ∧ busy.Sized ∧
    (0 ≤ (0#64).toInt ∧ (0#64).toInt < busy.numLines) ∧ (0 ≤ (3#64).toInt ∧ (3#64).toInt < busy.numLines) ∧
    ¬(0 ≤ (4#64).toInt ∧ (4#64).toInt < busy.numLines) ∧
    ¬(0 ≤ (-1#64).toInt ∧ (-1#64).toInt < busy.numLines) ∧
    (busy.lineReg 0).getLsbD 0 = true ∧ busy.status.getLsbD 0 = true := by decide

/-- CreateMakesZeroBlock, ResetIsTheCreatedBlock: the least and the greatest number of lines, and 64. -/
theorem witness_create : unborn.life = .none ∧ unborn.fault = none ∧ unborn.canAllocate = true ∧
    (1 ≤ (1#64).toNat ∧ (1#64).toNat + 4 ≤ 2 ^ 64) ∧
    (1 ≤ (0xFFFFFFFFFFFFFFFC#64).toNat ∧ (0xFFFFFFFFFFFFFFFC#64).toNat + 4 ≤ 2 ^ 64) := by decide

/-- FailedConstructionIsFinal: each of its three cases. -/
theorem witness_failed_construction : starved.life = .none ∧ starved.fault = none ∧ unborn.life = .none ∧
    unborn.fault = none ∧ (0#64).toNat = 0 ∧ 2 ^ 64 < (0xFFFFFFFFFFFFFFFD#64).toNat + 4 ∧
    starved.canAllocate = false := by decide

/-- DestroyEndsLife, OtherSizesAreRefused. -/
theorem witness_serving : busy.Serving ∧ busy.Sized ∧ ¬IsSize 3 ∧ ¬IsSize 0 := by decide

/-- WellFormedRequestsComplete: a line signal to the last line, and one to the first index of no line. -/
theorem witness_complete : busy.Serving ∧ busy.Sized ∧ busy.numLines = 4 ∧
    WellFormed 4 (.lineRaise 3) = true ∧ (3#64).toNat < 4 ∧
    (onNext (exec (.lineRaise 3) busy) fun t => t.fault) = some none ∧
    WellFormed 4 (.lineLower 4) = true ∧ 4 ≤ (4#64).toNat ∧
    (onNext (exec (.lineLower 4) busy) fun t => t.fault) = some (some (.contractViolation 4)) := by decide

/-- StepPicksTheRightRow: the offsets where the rows meet. -/
theorem witness_rows :
    classify 4 (.mmioRead 0 1) = .ok (.mmioReadStatus 1) ∧ classify 4 (.mmioRead 3 1) = .ok (.mmioReadInvalid 1 3) ∧
    classify 4 (.mmioRead 4 1) = .ok (.mmioReadLine 1 4) ∧ classify 4 (.mmioWrite 7 2 9) = .ok (.mmioWriteLine 2 7 9) ∧
    classify 4 (.mmioWrite 8 2 9) = .ok (.mmioWriteInvalid 2 8 9) := by decide

/-- ContractViolationIsKept: the first index that names no line. -/
theorem witness_contract_violation : busy.Serving ∧ busy.numLines ≤ (4#64).toNat := by decide

/-- FaultIsFinal, and a step that answers a next state there. -/
theorem witness_fault : faulted.fault ≠ none ∧ step faulted = .next faulted := ⟨by decide, rfl⟩

/-- RequestsNeedTheirLife: a faulted block for the others, a live one for CREATE. -/
theorem witness_no_life : ¬(faulted.life = .alive ∧ faulted.fault = none) ∧ ¬(busy.life = .none ∧ busy.fault = none) := by
  decide

/-- LineSignalLevelIsOneBit, OverlapIsRefused, ReservedHeadersAreRefused, StepRunsTheNextRequest: an arrival of each
form, whose request decodes. -/
theorem witness_arrivals :
    (busy.Serving ∧ { busy with inbox := [.call (.lineSignal 0 2)] }.inbox = .call (.lineSignal 0 2) :: []) ∧
    { busy with inbox := [.overlap .destroy .destroy] }.inbox = .overlap .destroy .destroy :: [] ∧
    { busy with inbox := [.bytes [0x90]] }.inbox = .bytes (0x90 :: []) :: [] ∧
    decode busy.numLines [0x90] = .ok (.destroy, []) ∧
    classify busy.numLines (.lineSignal 0 1) = .ok (.lineRaise 0) ∧
    classify busy.numLines (.mmioWrite 0 1 (busValue .little [1])) = .ok (.mmioWriteStatus 1 1) := by decide

/-- NoRequestChangesNothing. -/
theorem witness_no_request : busy.inbox = [] := rfl

/-- DecodeOfEncode, EncodeOfDecode. -/
theorem witness_encode : WellFormed 4 (.mmioWriteLine 2 7 0x1234) = true ∧
    decode 4 (0x21#8 :: (op 7 ++ [0x34, 0x12, 0, 0, 0, 0, 0, 0])) = .ok (.mmioWriteLine 2 7 0x1234, []) := by decide

/-- BankReadsAndReplacesWhole, AggregateFollowsTheFormula, GlobalEnabledGatesTheOutput (both values of the bit). -/
theorem witness_bank : 3 < busy.line.length ∧ busy.Sized ∧ busy.status.getLsbD 0 = true ∧
    (block 0xFFFFFFFE [0x81] false).Sized ∧ (block 0xFFFFFFFE [0x81] false).status.getLsbD 0 = false ∧
    (3#32).getLsbD 0 = busy.status.getLsbD 0 := by decide

/-- ComposeMasksTheValue, BusLanesRoundTrip: the last byte of the widest access. -/
theorem witness_lanes : IsSize 8 ∧ 7 < 8 := by decide

/-- ReadsLieOnTheBusInItsOrder: in either order, the last line and the first offset past the lines. -/
theorem witness_read_lanes : busy.Serving ∧ busy.Sized ∧ IsSize 2 ∧ 1 < 2 ∧
    (4 ≤ (7#64).toNat ∧ (7#64).toNat < busy.numLines + 4) ∧ busy.numLines + 4 ≤ (8#64).toNat ∧
    (onNext (exec (.mmioReadLine 2 7) busy) (replyLanes 2)) = some (some [0x7E, 0]) ∧
    (onNext (exec (.mmioReadLine 2 7) { busy with busOrder := .big }) (replyLanes 2)) = some (some [0, 0x7E]) ∧
    (onNext (exec (.mmioReadInvalid 2 8) busy) (replyLanes 2)) = some (some [0, 0]) := by decide

/-- WhichRequestsPush, OutputIsNeverStale, StatusHasOneWriter, LifecycleOnlyGoesForward: a request that pushes, one that
does not, and one that ends a life. -/
theorem witness_next : busy.Sized ∧ busy.out = busy.outputFormula ∧
    (onNext (exec (.setLine 3) busy) fun t => t.pushes) = some [true, true] ∧ runsAggregate 4 (.setLine 3) ∧
    (onNext (exec (.setLine 4) busy) fun t => t.pushes) = some [true] ∧ ¬runsAggregate 4 (.setLine 4) ∧
    (onNext (exec (.create 2) unborn) fun t => t.pushes) = some [] ∧
    (onNext (exec .destroy busy) fun t => t.life) = some .destroyed := by
  refine ⟨by decide, by decide, by decide, ⟨by decide, by decide⟩, by decide, ?_, by decide, by decide⟩
  exact fun h => absurd h.2 (by decide)

/-- ReadsOnlyPush: a read of each row. -/
theorem witness_reads : (onNext (exec (.mmioReadStatus 1) busy) fun t => t.pushes) = some [true, true] ∧
    (onNext (exec (.mmioReadLine 1 4) busy) fun t => t.pushes) = some [true, true] ∧
    (onNext (exec (.mmioReadInvalid 1 1) busy) fun t => t.pushes) = some [true] := by decide

/-- EnabledHasThreeWriters, ActiveIsLatched, ReservedBitsHoldTheLastWrite, LineArrayIsNeverResized: in a live block a
request that changes ENABLED, one that changes ACTIVE and one that changes reserved bits. -/
theorem witness_writers : busy.life ≠ .none ∧
    (onNext (exec (.enableLine 0) busy) fun t => t.lineReg 0) = some 0x81 ∧
    (onNext (exec (.lineRaise 1) busy) fun t => t.lineReg 1) = some 0x81 ∧
    (onNext (exec (.mmioWriteLine 1 4 0x2A) busy) fun t => t.lineReg 0) = some 0x2A ∧
    4 + 4 ≤ 2 ^ 64 ∧ 3 < 4 := by decide

/-- WhatMovesTheOutput: from a state that meets the invariant the output falls, and from another it rises. -/
theorem witness_moves : busy.Inv ∧ busy.out = true ∧ (onNext (exec (.lineLower 2) busy) fun t => t.out) = some false ∧
    (block 1 [0x01] false).Inv ∧ (onNext (exec (.enableLine 0) (block 1 [0x01] false)) fun t => t.out) = some true :=
  ⟨witness_busy_inv, by decide, by decide,
    ⟨by decide, fun _ => by decide, by decide, by decide, by decide, by decide⟩, by decide⟩

/-- FourStatesOfALine: the last line. -/
theorem witness_four_states : busy.Serving ∧ busy.Sized ∧ busy.numLines + 4 ≤ 2 ^ 64 ∧ 0 ≤ (3#64).toInt ∧
    (3#64).toInt < busy.numLines ∧ IsSize 2 := by decide

/-- StepKeepsTheInvariant, RunsKeepTheInvariantAndTheHistory, BankIndexIsNeverOutOfRange: a step that serves a request
from a state that meets the invariant. -/
theorem witness_step : { busy with inbox := [.call (.clearLine 2)] }.Inv ∧
    (onNext (step { busy with inbox := [.call (.clearLine 2)] }) fun t => (t.out, t.pushes)) =
      some (false, [true, false]) ∧
    (onNext (Sys2Proof.core.run 1 { busy with inbox := [.call (.clearLine 2)] }) fun t => t.out) = some false :=
  ⟨⟨by decide, fun _ => by decide, by decide, by decide, by decide, by decide⟩, by decide, by decide⟩

/-- UnnamedBitsNeverReachTheOutput: two blocks that differ in the unnamed bits alone, and a step. -/
theorem witness_same_signals :
    SameSignals { block 1 [0x81] true with inbox := [.call .destroy] }
      { block 0xFFFFFFFF [0xFF] true with inbox := [.call .destroy] } ∧
    (onNext (step { block 1 [0x81] true with inbox := [.call .destroy] }) fun t => t.life) = some .destroyed := by
  refine ⟨⟨rfl, by decide, rfl, ?_, ?_, rfl, rfl, rfl, rfl, rfl, rfl, rfl⟩, by decide⟩
  · rintro (_ | i)
    · decide
    · rfl
  · rintro (_ | i)
    · decide
    · rfl

end Sys2Proof.Tests
end

section
/-! SUPPORT. The registers of the block (spec 10_state.md R13, R14, R17): when the output level is 1, and which line
register an instruction of a created block can write. -/

namespace Sys2Proof.Machine

/-! ### The output level over the registers -/

theorem any_line_iff (s : State) (p : Byte → Bool) :
    s.line.any p = true ↔ ∃ i, i < s.line.length ∧ p (s.lineReg i) = true := by
  rw [List.any_eq_true]
  constructor
  · rintro ⟨b, hb, hp⟩
    obtain ⟨i, hi, rfl⟩ := List.getElem_of_mem hb
    exact ⟨i, hi, by simpa [State.lineReg, hi] using hp⟩
  · rintro ⟨i, hi, hp⟩
    exact ⟨s.lineReg i, List.mem_of_getElem? (lineReg_eq_of_lt hi), hp⟩

theorem level_iff (s : State) : level s = true ↔
    globalEnabled s.status = true ∧ ∃ i, i < s.line.length ∧ contributes (s.lineReg i) = true := by
  rw [level, Bool.and_eq_true, any_line_iff, and_comm]

theorem level_congr {s t : State} (hline : s.line = t.line)
    (henabled : globalEnabled s.status = globalEnabled t.status) : level s = level t := by
  rw [level, level, hline, henabled]

/-! ### The writes of the line registers -/

/-- `LineWrite i k b b'`: instruction `i` writes line register `k`, and turns its byte `b` into `b'`. -/
inductive LineWrite : Instr → Nat → Byte → Byte → Prop
  | lineRaise (w : Word) (b : Byte) : LineWrite (.lineRaise w) w.toNat b (setBit activePos true b)
  | lineLower (w : Word) (b : Byte) : LineWrite (.lineLower w) w.toNat b (setBit activePos false b)
  | setLine {w : Word} {k : Nat} (hk : w.toInt = k) (b : Byte) :
      LineWrite (.setLine w) k b (setBit activePos true b)
  | clearLine {w : Word} {k : Nat} (hk : w.toInt = k) (b : Byte) :
      LineWrite (.clearLine w) k b (setBit activePos false b)
  | enableLine {w : Word} {k : Nat} (hk : w.toInt = k) (b : Byte) :
      LineWrite (.enableLine w) k b (setBit enabledPos true b)
  | disableLine {w : Word} {k : Nat} (hk : w.toInt = k) (b : Byte) :
      LineWrite (.disableLine w) k b (setBit enabledPos false b)
  | mmioWriteLine (size : Nat) {offset : Word} {k : Nat} (hk : offset.toNat = 4 + k) (value : Word) (b : Byte) :
      LineWrite (.mmioWriteLine size offset value) k b (byteAt value 0)

/-- What instruction `i` does to the line array on the way from `s` to `t`: it keeps NUM_LINES, and it leaves the array
as it is or makes one of its writes at one register of it. -/
def LineEffect (i : Instr) (s t : State) : Prop :=
  t.numLines = s.numLines ∧
  (t.line = s.line ∨
    ∃ k b, k < s.line.length ∧ LineWrite i k (s.lineReg k) b ∧ t.line = s.line.set k b)

theorem LineEffect.of_eq {i : Instr} {s t : State} (hn : t.numLines = s.numLines) (hl : t.line = s.line) :
    LineEffect i s t := ⟨hn, .inl hl⟩

theorem LineEffect.of_write {i : Instr} {s t : State} {k : Nat} {b : Byte} (hk : k < s.line.length)
    (hw : LineWrite i k (s.lineReg k) b) (hn : t.numLines = s.numLines) (hl : t.line = s.line.set k b) :
    LineEffect i s t := ⟨hn, .inr ⟨k, b, hk, hw, hl⟩⟩

theorem LineEffect.numLines_eq {i : Instr} {s t : State} (h : LineEffect i s t) : t.numLines = s.numLines := by
  obtain ⟨hn, -⟩ := h
  exact hn

theorem LineEffect.length_eq {i : Instr} {s t : State} (h : LineEffect i s t) :
    t.line.length = s.line.length := by
  obtain ⟨-, hl | ⟨k, b, -, -, hl⟩⟩ := h
  · rw [hl]
  · rw [hl, List.length_set]

/-- A register that changes is the one that the instruction writes. -/
theorem LineEffect.lineReg_cases {i : Instr} {s t : State} (h : LineEffect i s t) (j : Nat) :
    t.lineReg j = s.lineReg j ∨ LineWrite i j (s.lineReg j) (t.lineReg j) := by
  obtain ⟨-, hl | ⟨k, b, hk, hw, hl⟩⟩ := h
  · exact .inl (lineReg_congr hl j)
  · have hj := lineReg_of_set hk hl j
    by_cases hjk : j = k
    · subst hjk
      rw [if_pos rfl] at hj
      exact .inr (hj ▸ hw)
    · rw [if_neg hjk] at hj
      exact .inl hj

theorem lineEffect_of_lineSignal {i : Instr} {w : Word} {x : Bool} {s t : State}
    (hw : ∀ b, LineWrite i w.toNat b (setBit activePos x b))
    (h : whenServed s (lineSignal w x s) = .next t) : LineEffect i s t := by
  obtain ⟨-, ⟨-, rfl⟩ | ⟨-, hk, rfl⟩⟩ := whenServed_lineSignal_next h
  · exact .of_eq rfl rfl
  · exact .of_write hk (hw _) rfl rfl

theorem lineEffect_of_manage {i : Instr} {w : Word} {pos : Nat} {x : Bool} {s t : State}
    (hw : ∀ {k : Nat}, w.toInt = k → ∀ b, LineWrite i k b (setBit pos x b))
    (h : whenServed s (manage w pos x s) = .next t) : LineEffect i s t := by
  obtain ⟨-, ⟨-, rfl⟩ | ⟨⟨h0, -⟩, hk, rfl⟩⟩ := whenServed_manage_next h
  · exact .of_eq rfl rfl
  · exact .of_write hk (hw (Int.toNat_of_nonneg h0).symm _) rfl rfl

/-- What every instruction of a created block does to the line array; CREATE, which replaces it, answers in no created
block. -/
theorem lineEffect_of_exec {i : Instr} {s t : State} (hlife : s.life ≠ .none) (h : exec i s = .next t) :
    LineEffect i s t := by
  cases i with
  | mmioReadStatus size =>
    obtain ⟨-, -, rfl⟩ := execMmioReadStatus_next h
    exact .of_eq rfl rfl
  | mmioReadLine size offset =>
    obtain ⟨-, -, -, -, -, rfl⟩ := execMmioReadLine_next h
    exact .of_eq rfl rfl
  | mmioReadInvalid size offset =>
    obtain ⟨-, -, -, rfl⟩ := execMmioReadInvalid_next h
    exact .of_eq rfl rfl
  | mmioWriteStatus size value =>
    obtain ⟨-, -, rfl⟩ := execMmioWriteStatus_next h
    exact .of_eq rfl rfl
  | mmioWriteLine size offset value =>
    obtain ⟨-, -, h4, -, hk, rfl⟩ := execMmioWriteLine_next h
    exact .of_write hk (.mmioWriteLine size (Nat.add_sub_of_le h4).symm value _) rfl rfl
  | mmioWriteInvalid size offset value =>
    obtain ⟨-, -, -, rfl⟩ := execMmioWriteInvalid_next (value := value) h
    exact .of_eq rfl rfl
  | lineRaise w => exact lineEffect_of_lineSignal (.lineRaise w) h
  | lineLower w => exact lineEffect_of_lineSignal (.lineLower w) h
  | setLine w => exact lineEffect_of_manage .setLine h
  | clearLine w => exact lineEffect_of_manage .clearLine h
  | enableLine w => exact lineEffect_of_manage .enableLine h
  | disableLine w => exact lineEffect_of_manage .disableLine h
  | create n =>
    obtain ⟨⟨hnone, -⟩, -⟩ := execCreate_next h
    exact absurd hnone hlife
  | destroy =>
    obtain ⟨-, rfl⟩ := execDestroy_next h
    exact .of_eq rfl rfl

theorem getLsbD_enabled_setBit_active (x : Bool) (b : Byte) :
    (setBit activePos x b).getLsbD 7 = b.getLsbD 7 :=
  getLsbD_setBit activePos x b (by decide) 7 (by decide)

/-- The writes that can change ENABLED are those of the three writers of R17. -/
theorem LineWrite.writer_of_enabled_ne {i : Instr} {j : Nat} {b b' : Byte} (h : LineWrite i j b b')
    (hne : b'.getLsbD 7 ≠ b.getLsbD 7) :
    (∃ k, i = .enableLine k ∧ k.toInt = j) ∨ (∃ k, i = .disableLine k ∧ k.toInt = j) ∨
      (∃ size offset v, i = .mmioWriteLine size offset v ∧ offset.toNat = 4 + j) := by
  cases h with
  | lineRaise | lineLower | setLine | clearLine => exact absurd (getLsbD_enabled_setBit_active _ b) hne
  | enableLine hk => exact .inl ⟨_, rfl, hk⟩
  | disableLine hk => exact .inr (.inl ⟨_, rfl, hk⟩)
  | mmioWriteLine size hk value => exact .inr (.inr ⟨size, _, value, rfl, hk⟩)

/-! ### The statements -/

/-- Settles O36, by the formula of the level over the line registers. -/
theorem globalEnabledGatesTheOutput : Obligations.GlobalEnabledGatesTheOutput := by
  unfold Obligations.GlobalEnabledGatesTheOutput
  intro s hsized
  refine ⟨fun hoff => ?_, fun hon => ?_, fun v hv => level_congr rfl hv⟩
  · refine Bool.eq_false_iff.mpr fun hlevel => ?_
    obtain ⟨hon, -⟩ := (level_iff s).mp hlevel
    exact absurd (hon.symm.trans hoff) (by decide)
  · have hglobal : globalEnabled s.status = true := hon
    have hlength : s.line.length = s.numLines := hsized
    simp only [level_iff, hglobal, hlength, true_and, contributes, Bool.and_eq_true]

/-- Settles O41: a register that changes is written by the instruction, and only three writes reach bit 7. -/
theorem enabledHasThreeWriters : Obligations.EnabledHasThreeWriters := by
  unfold Obligations.EnabledHasThreeWriters
  intro s t i j hlife hexec hne
  obtain heq | hwrite := (lineEffect_of_exec hlife hexec).lineReg_cases j
  · exact absurd (by rw [heq]) hne
  · exact hwrite.writer_of_enabled_ne hne

/-- Settles O44: an instruction of a created block replaces at most one element of the array, and `4 + i` with
`i < NUM_LINES` is within the 64-bit offsets. -/
theorem lineArrayIsNeverResized : Obligations.LineArrayIsNeverResized := by
  unfold Obligations.LineArrayIsNeverResized
  refine ⟨fun s t i hlife hexec => ?_, fun n i hn hi => ?_⟩
  · have heffect := lineEffect_of_exec hlife hexec
    exact ⟨heffect.length_eq, heffect.numLines_eq⟩
  · have hoffset : (BitVec.ofNat 64 (4 + i)).toNat = 4 + i := by
      rw [BitVec.toNat_ofNat, Nat.mod_eq_of_lt (by omega)]
    rw [mmioTarget_line (by omega), hoffset, Nat.add_sub_cancel_left]

end Sys2Proof.Machine
end

section
/-! SUPPORT. The operands of an access (spec 30_encoding.md R44, R46): the target that an offset decodes to, and the
value that the low bytes of an operand compose, bit by bit. -/

namespace Sys2Proof.Machine

/-! ### The composition of a written value -/

theorem compose_succ (value : Word) (size : Nat) :
    compose value (size + 1) = compose value size ||| ((byteAt value size).setWidth 64 <<< (8 * size)) := by
  rw [compose, List.range_succ, List.foldl_append]
  rfl

/-- The bits of one term of R46's shifted OR: those of byte `k` of the value, in their own place. -/
theorem getLsbD_shifted_byteAt (value : Word) (k j : Nat) :
    ((byteAt value k).setWidth 64 <<< (8 * k)).getLsbD j =
      (decide (8 * k ≤ j ∧ j < 8 * k + 8) && value.getLsbD j) := by
  by_cases hj : j < 64
  · by_cases hlow : j < 8 * k
    · have hout : ¬(8 * k ≤ j ∧ j < 8 * k + 8) := by omega
      simp [hlow, hout]
    · have hplace : 8 * k + (j - 8 * k) = j := by omega
      have hbyte : j - 8 * k < 8 ↔ 8 * k ≤ j ∧ j < 8 * k + 8 := by omega
      simp [byteAt, hj, hlow, hplace, hbyte]
  · have hge : 64 ≤ j := Nat.le_of_not_lt hj
    rw [BitVec.getLsbD_of_ge _ _ hge, BitVec.getLsbD_of_ge _ _ hge, Bool.and_false]

theorem getLsbD_compose (value : Word) (size j : Nat) :
    (compose value size).getLsbD j = (decide (j < 8 * size) && value.getLsbD j) := by
  induction size with
  | zero => simp [compose]
  | succ size ih =>
    have hrange : j < 8 * (size + 1) ↔ j < 8 * size ∨ (8 * size ≤ j ∧ j < 8 * size + 8) := by omega
    rw [compose_succ, BitVec.getLsbD_or, ih, getLsbD_shifted_byteAt, ← Bool.and_or_distrib_right,
      ← Bool.decide_or, decide_eq_decide.mpr hrange]

theorem compose_eq_and_mask (value : Word) (size : Nat) : compose value size = value &&& mask size := by
  refine BitVec.eq_of_getLsbD_eq fun j hj => ?_
  rw [getLsbD_compose, BitVec.getLsbD_and, getLsbD_mask, decide_eq_true hj, Bool.true_and, Bool.and_comm]

theorem byteAt_compose {size k : Nat} (value : Word) (hk : k < size) :
    byteAt (compose value size) k = byteAt value k := by
  refine BitVec.eq_of_getLsbD_eq fun j hj => ?_
  have hin : 8 * k + j < 8 * size := by omega
  rw [byteAt, byteAt, BitVec.getLsbD_extractLsb', BitVec.getLsbD_extractLsb', getLsbD_compose,
    decide_eq_true hin, Bool.true_and]

theorem writeStatus_eq (value : Word) (s : State) :
    writeStatus value s = { s with status := value.extractLsb' 0 32 } := by
  rw [writeStatus, BitVec.setWidth_eq_extractLsb' (by decide)]

/-! ### The target of an offset -/

theorem mmioTarget_line_iff (n : Nat) (offset : Word) (i : Nat) :
    mmioTarget n offset = .line i ↔ 4 ≤ offset.toNat ∧ offset.toNat < n + 4 ∧ i = offset.toNat - 4 := by
  constructor
  · exact mmioTarget_line_inv
  · rintro ⟨hlow, hhigh, rfl⟩
    exact mmioTarget_line ⟨hlow, hhigh⟩

/-! ### The statements -/

/-- Settles O29, by the bits of the composed value: those of the value below the size. -/
theorem composeMasksTheValue : Obligations.ComposeMasksTheValue := by
  unfold Obligations.ComposeMasksTheValue
  intro value size hsize
  have hpos : 0 < size := by omega
  exact ⟨compose_eq_and_mask value size, writeStatus_eq _, byteAt_compose value hpos,
    fun _ hk => byteAt_compose value hk⟩

/-- Settles O28, by the range of each target. -/
theorem offsetsDecodeByRange : Obligations.OffsetsDecodeByRange := by
  unfold Obligations.OffsetsDecodeByRange
  intro n offset
  refine ⟨mmioTarget_status_iff n offset, mmioTarget_line_iff n offset, ?_⟩
  rw [mmioTarget_invalid_iff]
  omega

end Sys2Proof.Machine
end

section
/-! SUPPORT. The primitives of the register bank (spec 40_register_bank.md R50 to R53): what a read returns, and what a
read after a write returns. -/

namespace Sys2Proof.Machine

theorem readStatus_eq (s : State) : readStatus s = s.status := rfl

/-- The byte that a write stores, reserved bits included, is the one that a read of the same register returns. -/
theorem readLine_of_writeLine {s t : State} {i : Nat} {b : Byte} (h : writeLine i b s = .ok t) :
    readLine i t = .ok b := by
  obtain ⟨hi, rfl⟩ := writeLine_ok h
  have hset : i < (s.line.set i b).length := by rwa [List.length_set]
  rw [readLine_of_lt hset, lineReg_of_set hi rfl i, if_pos rfl]

/-- Settles O34, by what each primitive answers, and the read back by the write that precedes it. -/
theorem bankReadsAndReplacesWhole : Obligations.BankReadsAndReplacesWhole := by
  unfold Obligations.BankReadsAndReplacesWhole
  refine ⟨fun s v => ⟨readStatus_eq s, writeStatus_eq v s⟩, fun s i b hi => ?_⟩
  have hwrite := writeLine_of_lt b hi
  exact ⟨readLine_of_lt hi, hwrite, readLine_of_writeLine hwrite⟩

end Sys2Proof.Machine
end

section
/-! SUPPORT. The Aggregation Engine (spec 41_aggregation.md R55, R56): the level of the model, taken over the line array,
is the formula of the spec, taken over the indices below NUM_LINES. -/

namespace Sys2Proof.Machine

theorem outputFormula_iff (s : State) : s.outputFormula = true ↔
    s.status.getLsbD 0 = true ∧
    ∃ i, i < s.numLines ∧ (s.lineReg i).getLsbD 0 = true ∧ (s.lineReg i).getLsbD 7 = true := by
  simp only [State.outputFormula, Bool.and_eq_true, List.any_eq_true, List.mem_range, and_comm]

theorem contributes_iff (b : Byte) : contributes b = true ↔ b.getLsbD 0 = true ∧ b.getLsbD 7 = true := by
  rw [contributes, Bool.and_eq_true, active, enabled, activePos, enabledPos]

/-- An array of NUM_LINES registers has its registers at the indices of the spec's loop. -/
theorem level_eq_outputFormula {s : State} (hsized : s.Sized) : level s = s.outputFormula := by
  have hlength : s.line.length = s.numLines := hsized
  rw [Bool.eq_iff_iff, level_iff, outputFormula_iff, globalEnabled, hlength]
  simp only [contributes_iff]

theorem aggregate_eq_aggregated {s : State} (hsized : s.Sized) : aggregate s = s.aggregated := by
  rw [aggregate, push, State.aggregated, level_eq_outputFormula hsized]

/-- Settles O35, by the level of a sized array, which is the formula. -/
theorem aggregateFollowsTheFormula : Obligations.AggregateFollowsTheFormula := by
  unfold Obligations.AggregateFollowsTheFormula
  intro s hsized
  refine ⟨aggregate_eq_aggregated hsized, ?_⟩
  rw [aggregate_out, level_eq_outputFormula hsized, outputFormula_iff]

end Sys2Proof.Machine
end

section
/-! SUPPORT. The MMIO reads and writes (spec 42_mmio.md R61 to R63 and R65): the check that each access passes, the datum that a
mask leaves, the header that a supported size has, and what each request then answers. -/

namespace Sys2Proof.Machine

/-! ### Where the checks pass -/

theorem ofBank_ok {α : Type} (a : α) (k : α → Host.Outcome State Fault Refusal) : ofBank (.ok a) k = k a := rfl

theorem whenLineTarget_of {s : State} {offset : Word} (hlow : 4 ≤ offset.toNat)
    (hhigh : offset.toNat < s.numLines + 4) (k : Nat → Host.Outcome State Fault Refusal) :
    whenLineTarget s offset k = k (offset.toNat - 4) := by
  simp only [whenLineTarget, mmioTarget_line ⟨hlow, hhigh⟩]

theorem whenInvalidTarget_of {s : State} {offset : Word}
    (h : (1 ≤ offset.toNat ∧ offset.toNat ≤ 3) ∨ s.numLines + 4 ≤ offset.toNat)
    (k : Host.Outcome State Fault Refusal) : whenInvalidTarget s offset k = k := by
  simp only [whenInvalidTarget, (mmioTarget_invalid_iff _ _).mpr h]

/-- The offset of a line register names an element of a sized array. -/
theorem lineOffset_lt_length {s : State} (hsized : s.Sized) {offset : Word} (hlow : 4 ≤ offset.toNat)
    (hhigh : offset.toNat < s.numLines + 4) : offset.toNat - 4 < s.line.length := by
  have hlength : s.line.length = s.numLines := hsized
  omega

/-! ### The datum of a read -/

/-- Masking a register to an access's width keeps its bits below that width (R8, R61). -/
theorem setWidth_and_mask {w : Nat} (v : BitVec w) (size : Nat) :
    v.setWidth 64 &&& mask size = (v.setWidth (8 * size)).setWidth 64 := by
  refine BitVec.eq_of_getLsbD_eq fun j hj => ?_
  simp only [BitVec.getLsbD_and, BitVec.getLsbD_setWidth, getLsbD_mask, decide_eq_true hj, Bool.true_and,
    Bool.and_comm]

/-- The mask of R62 takes nothing from a register of one byte. -/
theorem setWidth_and_byteMask (b : Byte) : b.setWidth 64 &&& 0xFF#64 = b.setWidth 64 := by
  have hmask : b.setWidth 64 &&& mask 1 = (b.setWidth 8).setWidth 64 := setWidth_and_mask b 1
  rwa [BitVec.setWidth_eq] at hmask

theorem byteAt_zero (value : Word) : byteAt value 0 = value.extractLsb' 0 8 := rfl

/-! ### The header of an MMIO request -/

theorem codeOfSize_of_isSize {size : Nat} (h : IsSize size) :
    ∃ sz, codeOfSize size = some sz ∧ size = 2 ^ sz.toNat := by
  obtain rfl | rfl | rfl | rfl := h
  · exact ⟨0, rfl, rfl⟩
  · exact ⟨1, rfl, rfl⟩
  · exact ⟨2, rfl, rfl⟩
  · exact ⟨3, rfl, rfl⟩

theorem hasHeader_of_mmioRead {i : Instr} {offset : Word} {size : Nat} (hr : requestOf i = .mmioRead offset size)
    (hsize : IsSize size) : ∃ sz : BitVec 2, size = 2 ^ sz.toNat ∧ HasHeader i 0x1 0 sz := by
  obtain ⟨sz, hcode, hpow⟩ := codeOfSize_of_isSize hsize
  refine ⟨sz, hpow, bytesOfWord 8 offset, ?_⟩
  rw [encode, hr, pack, hcode]
  rfl

theorem hasHeader_of_mmioWrite {i : Instr} {offset value : Word} {size : Nat}
    (hr : requestOf i = .mmioWrite offset size value) (hsize : IsSize size) :
    ∃ sz : BitVec 2, size = 2 ^ sz.toNat ∧ HasHeader i 0x2 0 sz := by
  obtain ⟨sz, hcode, hpow⟩ := codeOfSize_of_isSize hsize
  refine ⟨sz, hpow, bytesOfWord 8 offset ++ bytesOfWord 8 value, ?_⟩
  rw [encode, hr, pack, hcode]
  rfl

/-! ### What each request answers -/

theorem setReply_aggregate {s : State} (hsized : s.Sized) (r : Reply) :
    setReply r (aggregate s) = { s.aggregated with reply := r } := by
  rw [aggregate_eq_aggregated hsized, setReply]

section
variable {s : State} {size : Nat} {offset : Word}

theorem exec_mmioReadStatus (hserving : s.Serving) (hsized : s.Sized) (hsize : IsSize size) :
    exec (.mmioReadStatus size) s =
      .next { s.aggregated with reply := .data (s.status.setWidth 64 &&& mask size) } := by
  rw [exec, execMmioReadStatus, whenServed_of hserving, whenSized_of hsize, readStatus_eq,
    setReply_aggregate hsized]

theorem exec_mmioReadLine (hserving : s.Serving) (hsized : s.Sized) (hsize : IsSize size)
    (hlow : 4 ≤ offset.toNat) (hhigh : offset.toNat < s.numLines + 4) :
    exec (.mmioReadLine size offset) s =
      .next { s.aggregated with reply := .data ((s.lineReg (offset.toNat - 4)).setWidth 64) } := by
  have hindex := lineOffset_lt_length hsized hlow hhigh
  rw [exec, execMmioReadLine, whenServed_of hserving, whenSized_of hsize, whenLineTarget_of hlow hhigh,
    readLine_of_lt hindex, ofBank_ok, setWidth_and_byteMask, setReply_aggregate hsized]

theorem exec_mmioReadInvalid (hserving : s.Serving) (hsize : IsSize size)
    (hoffset : (1 ≤ offset.toNat ∧ offset.toNat ≤ 3) ∨ s.numLines + 4 ≤ offset.toNat) :
    exec (.mmioReadInvalid size offset) s = .next { s with reply := .data 0 } := by
  rw [exec, execMmioReadInvalid, whenServed_of hserving, whenSized_of hsize, whenInvalidTarget_of hoffset, setReply]

theorem exec_mmioWriteLine (value : Word) (hserving : s.Serving) (hsized : s.Sized) (hsize : IsSize size)
    (hlow : 4 ≤ offset.toNat) (hhigh : offset.toNat < s.numLines + 4) :
    exec (.mmioWriteLine size offset value) s =
      .next { State.aggregated { s with line := s.line.set (offset.toNat - 4) (value.extractLsb' 0 8) } with
        reply := .nothing } := by
  have hwrite := writeLine_of_lt (value.extractLsb' 0 8) (lineOffset_lt_length hsized hlow hhigh)
  rw [exec, execMmioWriteLine, whenServed_of hserving, whenSized_of hsize, whenLineTarget_of hlow hhigh,
    byteAt_zero, hwrite, ofBank_ok, setReply_aggregate (writeLine_sized hsized hwrite)]

end

/-! ### The statements -/

/-- Settles O1: the mask keeps the bits of the status register below the width, all of them at 4 and 8 bytes. -/
theorem readStatusReturnsMaskedStatus : Obligations.ReadStatusReturnsMaskedStatus := by
  unfold Obligations.ReadStatusReturnsMaskedStatus
  intro s size hserving hsized hsize
  have hdatum := setWidth_and_mask s.status size
  refine ⟨_, exec_mmioReadStatus hserving hsized hsize, rfl, ?_, ?_, ?_, ?_, Eq.symm,
    hasHeader_of_mmioRead rfl hsize⟩
  · rintro rfl
    rw [hdatum, BitVec.setWidth_eq_extractLsb' (x := s.status) (by decide)]
  · rintro rfl
    rw [hdatum, BitVec.setWidth_eq_extractLsb' (x := s.status) (by decide)]
  · rintro rfl
    rw [hdatum, BitVec.setWidth_eq]
  · rintro rfl
    rw [hdatum, BitVec.setWidth_eq]

/-- Settles O2, by the one register that the offset of a line names. -/
theorem readLineReturnsOneRegister : Obligations.ReadLineReturnsOneRegister := by
  unfold Obligations.ReadLineReturnsOneRegister
  intro s size offset hserving hsized hsize hlow hhigh
  exact ⟨exec_mmioReadLine hserving hsized hsize hlow hhigh, hasHeader_of_mmioRead rfl hsize⟩

/-- Settles O3: offsets 1, 2, 3 and those past the lines are the ones that decode to no register. -/
theorem readInvalidReturnsZero : Obligations.ReadInvalidReturnsZero := by
  unfold Obligations.ReadInvalidReturnsZero
  intro s size offset hserving hsize hoffset
  exact ⟨exec_mmioReadInvalid hserving hsize (by omega), hasHeader_of_mmioRead rfl hsize⟩

/-- Settles O5, by the bank's write of the one register that the offset names. -/
theorem writeLineReplacesOneRegister : Obligations.WriteLineReplacesOneRegister := by
  unfold Obligations.WriteLineReplacesOneRegister
  intro s size offset value hserving hsized hsize hlow hhigh
  exact ⟨exec_mmioWriteLine value hserving hsized hsize hlow hhigh,
    lineReg_of_set (lineOffset_lt_length hsized hlow hhigh) rfl, hasHeader_of_mmioWrite rfl hsize⟩

end Sys2Proof.Machine
end

section
/-! SUPPORT. The four states of a line (spec 44_management.md R78): what one bit write does to the pair
(ACTIVE, ENABLED), and that the line signals and the management operations, where their index names a line, complete
with that one bit write. -/

namespace Sys2Proof.Machine

/-! ### The pair (ACTIVE, ENABLED) of one register -/

theorem active_setBit_active (x : Bool) (b : Byte) : active (setBit activePos x b) = x :=
  getLsbD_setBit activePos x b (by decide) 0 (by decide)

theorem enabled_setBit_active (x : Bool) (b : Byte) : enabled (setBit activePos x b) = enabled b :=
  getLsbD_enabled_setBit_active x b

theorem active_setBit_enabled (x : Bool) (b : Byte) : active (setBit enabledPos x b) = active b :=
  getLsbD_setBit enabledPos x b (by decide) 0 (by decide)

theorem enabled_setBit_enabled (x : Bool) (b : Byte) : enabled (setBit enabledPos x b) = x :=
  getLsbD_setBit enabledPos x b (by decide) 7 (by decide)

theorem active_lowByte (v : Word) : active (v.extractLsb' 0 8) = v.getLsbD 0 := by
  simp [active, activePos]

theorem enabled_lowByte (v : Word) : enabled (v.extractLsb' 0 8) = v.getLsbD 7 := by
  simp [enabled, enabledPos]

/-! ### A valid index, as a signed and as an unsigned number -/

theorem toInt_eq_toNat_of_nonneg {k : Word} (h : 0 ≤ k.toInt) : k.toInt = k.toNat :=
  BitVec.toInt_eq_toNat_of_msb (BitVec.msb_eq_toInt.trans (decide_eq_false (Int.not_lt.mpr h)))

theorem managementIndex_of {n : Nat} {k : Word} (h0 : 0 ≤ k.toInt) (hlt : k.toInt < n) :
    managementIndex n k = some k.toNat := by
  rw [managementIndex, if_pos ⟨h0, hlt⟩, toInt_eq_toNat_of_nonneg h0, Int.toNat_natCast]

theorem lineIndex_of {n : Nat} {k : Word} (h : k.toNat < n) : lineIndex n k = some k.toNat := if_pos h

/-! ### The requests that write one bit of one register -/

theorem lineReg_of_set_self {s t : State} {k : Nat} {b : Byte} (hk : k < s.line.length)
    (h : t.line = s.line.set k b) : t.lineReg k = b := by
  rw [lineReg_of_set hk h, if_pos rfl]

/-- Instruction `i` completes in `s`, and register `k` is then as before but for bit `pos`, which is `x`. -/
def WritesBit (i : Instr) (s : State) (k pos : Nat) (x : Bool) : Prop :=
  ∃ t, exec i s = .next t ∧ t.lineReg k = setBit pos x (s.lineReg k)

section
variable {i : Instr} {s : State} {w : Word} {k pos : Nat} {x : Bool}

theorem writesBit_of_lineSignal (hexec : exec i s = whenServed s (lineSignal w x s)) (hserving : s.Serving)
    (hindex : lineIndex s.numLines w = some k) (hk : k < s.line.length) : WritesBit i s k activePos x := by
  refine ⟨setReply .nothing (aggregate { s with line := s.line.set k (setBit activePos x (s.lineReg k)) }), ?_, ?_⟩
  · rw [hexec, whenServed_of hserving, lineSignal, hindex]
    simp only [writeLineBit_of_lt activePos x hk, ofBank_ok]
  · exact lineReg_of_set_self hk rfl

theorem writesBit_of_manage (hexec : exec i s = whenServed s (manage w pos x s)) (hserving : s.Serving)
    (hindex : managementIndex s.numLines w = some k) (hk : k < s.line.length) : WritesBit i s k pos x := by
  refine ⟨setReply .ok (aggregate { s with line := s.line.set k (setBit pos x (s.lineReg k)) }), ?_, ?_⟩
  · rw [hexec, whenServed_of hserving, manage, hindex]
    simp only [writeLineBit_of_lt pos x hk, ofBank_ok]
  · exact lineReg_of_set_self hk rfl

/-- A write of ACTIVE moves the line along ACTIVE alone. -/
theorem WritesBit.active_moves (h : WritesBit i s k activePos x) :
    ∃ t, exec i s = .next t ∧ active (t.lineReg k) = x ∧ enabled (t.lineReg k) = enabled (s.lineReg k) := by
  obtain ⟨t, hexec, hreg⟩ := h
  exact ⟨t, hexec, by rw [hreg, active_setBit_active], by rw [hreg, enabled_setBit_active]⟩

/-- A write of ENABLED moves the line along ENABLED alone. -/
theorem WritesBit.enabled_moves (h : WritesBit i s k enabledPos x) :
    ∃ t, exec i s = .next t ∧ active (t.lineReg k) = active (s.lineReg k) ∧ enabled (t.lineReg k) = x := by
  obtain ⟨t, hexec, hreg⟩ := h
  exact ⟨t, hexec, by rw [hreg, active_setBit_enabled], by rw [hreg, enabled_setBit_enabled]⟩

/-- An MMIO write at the offset of line `w` puts the line in the state that bits 0 and 7 of the value give. -/
theorem mmioWriteLine_moves {size : Nat} (v : Word) (hserving : s.Serving) (hsized : s.Sized) (hsize : IsSize size)
    (hspace : s.numLines + 4 ≤ 2 ^ 64) (hw : w.toNat < s.numLines) :
    ∃ t, exec (.mmioWriteLine size (4 + w) v) s = .next t ∧
      active (t.lineReg w.toNat) = v.getLsbD 0 ∧ enabled (t.lineReg w.toNat) = v.getLsbD 7 := by
  have hoffset : (4 + w).toNat = 4 + w.toNat := BitVec.toNat_add_of_lt (show 4 + w.toNat < 2 ^ 64 by omega)
  have hlength : s.line.length = s.numLines := hsized
  refine ⟨_, exec_mmioWriteLine v hserving hsized hsize (by omega) (by omega), ?_⟩
  rw [hoffset, Nat.add_sub_cancel_left, lineReg_of_set_self (hlength ▸ hw) rfl, active_lowByte, enabled_lowByte]
  exact ⟨rfl, rfl⟩

end

/-- Settles O47: each request but the MMIO write is a write of one bit of the pair, and the last clause is the formula
of the output. -/
theorem fourStatesOfALine : Obligations.FourStatesOfALine := by
  unfold Obligations.FourStatesOfALine
  intro s k hserving hsized hspace hnonneg hlt
  have hint := toInt_eq_toNat_of_nonneg hnonneg
  have hvalid : k.toNat < s.numLines := by omega
  have hlength : s.line.length = s.numLines := hsized
  have hk : k.toNat < s.line.length := hlength ▸ hvalid
  have hline := lineIndex_of hvalid
  have hmanaged := managementIndex_of hnonneg hlt
  refine ⟨?raise, ?set, ?lower, ?clear, ?enable, ?disable, ?write, ?formula⟩
  case raise => exact (writesBit_of_lineSignal rfl hserving hline hk).active_moves
  case set => exact (writesBit_of_manage rfl hserving hmanaged hk).active_moves
  case lower => exact (writesBit_of_lineSignal rfl hserving hline hk).active_moves
  case clear => exact (writesBit_of_manage rfl hserving hmanaged hk).active_moves
  case enable => exact (writesBit_of_manage rfl hserving hmanaged hk).enabled_moves
  case disable => exact (writesBit_of_manage rfl hserving hmanaged hk).enabled_moves
  case write => exact fun size v hsize => mmioWriteLine_moves v hserving hsized hsize hspace hvalid
  case formula => exact outputFormula_iff s

end Sys2Proof.Machine
end

section
/-! SUPPORT. Packed requests (spec 30_encoding.md R42, R43, R48): the words that bytes compose, the fields of a header
byte, and that decoding and encoding are inverse to each other. -/

namespace Sys2Proof.Machine

/-! ### Words and their bytes -/

theorem mask_eight : mask 8 = BitVec.allOnes 64 := rfl

theorem getLsbD_wordOfBytes_cons (b : Byte) (bs : List Byte) {j : Nat} (hj : j < 64) :
    (wordOfBytes (b :: bs)).getLsbD j = if j < 8 then b.getLsbD j else (wordOfBytes bs).getLsbD (j - 8) := by
  rw [wordOfBytes, BitVec.getLsbD_or, BitVec.getLsbD_setWidth, BitVec.getLsbD_shiftLeft]
  by_cases hlow : j < 8
  · simp [hj, hlow]
  · simp [hj, hlow, BitVec.getLsbD_of_ge b j (Nat.le_of_not_lt hlow)]

/-- Composing the low bytes of a word masks the word to them (R29, R42). -/
theorem wordOfBytes_bytesOfWord (k : Nat) (w : Word) : wordOfBytes (bytesOfWord k w) = w &&& mask k := by
  refine BitVec.eq_of_getLsbD_eq fun j hj => ?_
  rw [BitVec.getLsbD_and, getLsbD_mask]
  induction k generalizing w j with
  | zero => simp [bytesOfWord, wordOfBytes]
  | succ k ih =>
    rw [bytesOfWord, getLsbD_wordOfBytes_cons _ _ hj]
    by_cases hlow : j < 8
    · have hin : j < 8 * (k + 1) := by omega
      simp [hlow, hj, hin]
    · have hplace : 8 + (j - 8) = j := by omega
      have hrange : j - 8 < 8 * k ↔ j < 8 * (k + 1) := by omega
      rw [if_neg hlow, ih _ (j - 8) (by omega), BitVec.getLsbD_ushiftRight, hplace]
      simp [hj, hrange, show j - 8 < 64 by omega]

theorem byteAt_succ (w : Word) (k : Nat) : byteAt (w >>> 8) k = byteAt w (k + 1) := by
  refine BitVec.eq_of_getLsbD_eq fun j _ => ?_
  simp only [byteAt, BitVec.getLsbD_extractLsb', BitVec.getLsbD_ushiftRight]
  rw [show 8 + (8 * k + j) = 8 * (k + 1) + j by omega]

/-- Element `j` of the bytes of a word is its byte `j` (R42). -/
theorem getElem?_bytesOfWord {k j : Nat} (w : Word) (hj : j < k) : (bytesOfWord k w)[j]? = some (byteAt w j) := by
  induction k generalizing w j with
  | zero => exact absurd hj (Nat.not_lt_zero j)
  | succ k ih =>
    cases j with
    | zero => simp [bytesOfWord, byteAt, BitVec.setWidth_eq_extractLsb']
    | succ j => rw [bytesOfWord, List.getElem?_cons_succ, ih _ (Nat.lt_of_succ_lt_succ hj), byteAt_succ]

/-- Byte `k` of the word that bytes compose is element `k` of them, as far as a word has bytes (R42). -/
theorem byteAt_wordOfBytes {bs : List Byte} {k : Nat} (hk : k < 8) : byteAt (wordOfBytes bs) k = bs.getD k 0 := by
  induction bs generalizing k with
  | nil => simp [wordOfBytes, byteAt]
  | cons b bs ih =>
    refine BitVec.eq_of_getLsbD_eq fun j hj => ?_
    rw [byteAt, BitVec.getLsbD_extractLsb', getLsbD_wordOfBytes_cons _ _ (by omega), decide_eq_true hj, Bool.true_and]
    cases k with
    | zero => simp [hj]
    | succ k =>
      have hplace : 8 * (k + 1) + j - 8 = 8 * k + j := by omega
      have hbyte := congrArg (BitVec.getLsbD · j) (ih (Nat.lt_of_succ_lt hk))
      rw [byteAt] at hbyte
      simp only [BitVec.getLsbD_extractLsb', hj, decide_true, Bool.true_and] at hbyte
      rw [if_neg (by omega), hplace, hbyte, List.getD_cons_succ]

theorem bytesOfWord_wordOfBytes {bs : List Byte} (hlength : bs.length = 8) :
    bytesOfWord 8 (wordOfBytes bs) = bs := by
  refine List.ext_getElem? fun k => ?_
  by_cases hk : k < 8
  · rw [getElem?_bytesOfWord _ hk, byteAt_wordOfBytes hk]
    simp [hlength, hk]
  · rw [List.getElem?_eq_none (by rw [Laws.length_bytesOfWord]; omega), List.getElem?_eq_none (by omega)]

/-- An operand is taken exactly from its 8 bytes (R42). -/
theorem takeOperand_iff {bs rest : List Byte} {w : Word} :
    takeOperand bs = some (w, rest) ↔ bs = bytesOfWord 8 w ++ rest := by
  unfold takeOperand
  constructor
  · intro h
    split at h
    · rename_i hlength
      obtain ⟨rfl, rfl⟩ := Prod.mk.inj (Option.some.inj h)
      rw [bytesOfWord_wordOfBytes (by simpa using hlength), List.take_append_drop]
    · cases h
  · rintro rfl
    have hlength := Laws.length_bytesOfWord 8 w
    rw [if_pos (by simp [hlength]), List.take_left' hlength, List.drop_left' hlength, wordOfBytes_bytesOfWord,
      mask_eight, BitVec.and_allOnes]

/-! ### The header byte -/

theorem kindOfCode_iff (code : BitVec 4) (k : Kind) : kindOfCode code = some k ↔ code = codeOfKind k := by
  revert code
  cases k <;> decide

/-- The fields of a header byte that R48 admits: a level bit for LINE_SIGNAL alone, a size code for MMIO alone. -/
def FieldsAllowed (k : Kind) (lv : Bool) (sz : BitVec 2) : Prop :=
  (lv = true → k = .lineSignal) ∧ (sz ≠ 0 → isMmioKind k = true)

/-- A byte is its four fields, one after the other (R42). -/
theorem byte_eq_fields (b : Byte) : b =
    b.extractLsb' 4 4 ++ BitVec.ofBool (b.getLsbD 3) ++ BitVec.ofBool (b.getLsbD 2) ++ b.extractLsb' 0 2 := by
  revert b
  decide

theorem makeHeader_fields (k : Kind) (lv : Bool) (sz : BitVec 2) :
    (makeHeader k lv sz).extractLsb' 4 4 = codeOfKind k ∧ (makeHeader k lv sz).getLsbD 3 = lv ∧
    (makeHeader k lv sz).getLsbD 2 = false ∧ (makeHeader k lv sz).extractLsb' 0 2 = sz := by
  revert sz lv
  cases k <;> decide

/-- A header is read from exactly one byte, the one made of its fields. -/
theorem readHeader_iff (b : Byte) (k : Kind) (lv : Bool) (sz : BitVec 2) :
    readHeader b = some (k, lv, sz) ↔ b = makeHeader k lv sz ∧ FieldsAllowed k lv sz := by
  unfold readHeader
  constructor
  · intro h
    cases hk : kindOfCode (b.extractLsb' 4 4) with
    | none => simp [hk] at h
    | some k' =>
      simp only [hk, Option.ite_none_left_eq_some, Option.some.injEq, Prod.mk.injEq] at h
      obtain ⟨hbit, hlevel, hsize, rfl, rfl, rfl⟩ := h
      refine ⟨?_, by simpa using hlevel, by simpa using hsize⟩
      rw [makeHeader, ← (kindOfCode_iff _ _).mp hk]
      have hfields := byte_eq_fields b
      rwa [Bool.eq_false_iff.mpr hbit] at hfields
  · rintro ⟨rfl, hlevel, hsize⟩
    obtain ⟨hcode, hlv, hbit, hsz⟩ := makeHeader_fields k lv sz
    rw [hcode, hlv, hbit, hsz, (kindOfCode_iff _ k).mpr rfl]
    have hlevel' : ¬(lv && k != .lineSignal) = true := by simpa using hlevel
    have hsize' : ¬(sz != 0 && !isMmioKind k) = true := by simpa using hsize
    simp only [Bool.false_eq_true, if_false, if_neg hlevel', if_neg hsize']

/-! ### Packed requests -/

theorem unpackOne_iff {mk : Word → Request} {bs rest : List Byte} {r : Request} :
    unpackOne mk bs = .ok (r, rest) ↔ ∃ w, r = mk w ∧ bs = bytesOfWord 8 w ++ rest := by
  unfold unpackOne
  constructor
  · intro h
    split at h
    · cases h
    · obtain ⟨rfl, rfl⟩ := Prod.mk.inj (Except.ok.inj h)
      exact ⟨_, rfl, takeOperand_iff.mp ‹_›⟩
  · rintro ⟨w, rfl, hbs⟩
    rw [takeOperand_iff.mpr hbs]

theorem unpackTwo_iff {mk : Word → Word → Request} {bs rest : List Byte} {r : Request} :
    unpackTwo mk bs = .ok (r, rest) ↔
      ∃ w v, r = mk w v ∧ bs = bytesOfWord 8 w ++ (bytesOfWord 8 v ++ rest) := by
  unfold unpackTwo
  constructor
  · intro h
    split at h
    · cases h
    · obtain ⟨v, rfl, rfl⟩ := unpackOne_iff.mp h
      exact ⟨_, v, rfl, takeOperand_iff.mp ‹_›⟩
  · rintro ⟨w, v, rfl, hbs⟩
    rw [takeOperand_iff.mpr hbs]
    exact unpackOne_iff.mpr ⟨v, rfl, rfl⟩

theorem codeOfSize_iff (size : Nat) (sz : BitVec 2) : codeOfSize size = some sz ↔ size = sizeOfCode sz := by
  constructor
  · intro h
    have hsupported : sizeSupported size = true := by rw [sizeSupported, h]; rfl
    obtain rfl | rfl | rfl | rfl := (sizeSupported_iff size).mp hsupported <;>
    · obtain rfl := Option.some.inj h
      rfl
  · rintro rfl
    revert sz
    decide

theorem isSize_of_codeOfSize {size : Nat} {sz : BitVec 2} (h : codeOfSize size = some sz) : IsSize size :=
  (sizeSupported_iff size).mp (by rw [sizeSupported, h]; rfl)

theorem wellFormed_size_of_isSize {size : Nat} (h : IsSize size) : WellFormed.size size = true :=
  (sizeSupported_eq_wellFormed size).symm.trans ((sizeSupported_iff size).mpr h)

theorem unpack_makeHeader {k : Kind} {lv : Bool} {sz : BitVec 2} (h : FieldsAllowed k lv sz) (ops : List Byte) :
    unpack (makeHeader k lv sz :: ops) = unpackOperands k lv sz ops := by
  simp only [unpack, (readHeader_iff _ k lv sz).mpr ⟨rfl, h⟩]

theorem unpack_ok {bs rest : List Byte} {r : Request} (h : unpack bs = .ok (r, rest)) :
    ∃ k lv sz ops, FieldsAllowed k lv sz ∧ bs = makeHeader k lv sz :: ops ∧
      unpackOperands k lv sz ops = .ok (r, rest) := by
  unfold unpack at h
  split at h
  · cases h
  · split at h
    · cases h
    · rename_i hheader
      obtain ⟨rfl, hfields⟩ := (readHeader_iff _ _ _ _).mp hheader
      exact ⟨_, _, _, _, hfields, rfl, h⟩

theorem fieldsAllowed_zero (k : Kind) : FieldsAllowed k false 0 := ⟨by simp, by simp⟩

theorem fieldsAllowed_mmio {k : Kind} (h : isMmioKind k = true) (sz : BitVec 2) : FieldsAllowed k false sz :=
  ⟨by simp, fun _ => h⟩

/-- What is packed is unpacked again, whatever bytes follow. -/
theorem unpack_pack {r : Request} {p : List Byte} (h : pack r = some p) (rest : List Byte) :
    unpack (p ++ rest) = .ok (r, rest) := by
  cases r with
  | mmioRead offset size =>
    obtain ⟨sz, hsz, rfl⟩ := Option.map_eq_some_iff.mp h
    rw [List.cons_append, unpack_makeHeader (fieldsAllowed_mmio rfl sz), (codeOfSize_iff size sz).mp hsz]
    exact (unpackOne_iff (mk := (.mmioRead · (sizeOfCode sz)))).mpr ⟨offset, rfl, rfl⟩
  | mmioWrite offset size value =>
    obtain ⟨sz, hsz, rfl⟩ := Option.map_eq_some_iff.mp h
    rw [List.cons_append, unpack_makeHeader (fieldsAllowed_mmio rfl sz), (codeOfSize_iff size sz).mp hsz]
    exact (unpackTwo_iff (mk := (.mmioWrite · (sizeOfCode sz) ·))).mpr
      ⟨offset, value, rfl, List.append_assoc _ _ _⟩
  | lineSignal i level =>
    rw [pack] at h
    split at h
    · subst level
      obtain rfl := Option.some.inj h
      rw [List.cons_append, unpack_makeHeader (fieldsAllowed_zero _)]
      exact (unpackOne_iff (mk := (.lineSignal · 0))).mpr ⟨i, rfl, rfl⟩
    · split at h
      · subst level
        obtain rfl := Option.some.inj h
        rw [List.cons_append, unpack_makeHeader (k := .lineSignal) ⟨fun _ => rfl, by simp⟩]
        exact (unpackOne_iff (mk := (.lineSignal · 1))).mpr ⟨i, rfl, rfl⟩
      · cases h
  | setLine i | clearLine i | enableLine i | disableLine i | create i =>
    obtain rfl := Option.some.inj h
    rw [List.cons_append, unpack_makeHeader (fieldsAllowed_zero _)]
    exact unpackOne_iff.mpr ⟨i, rfl, rfl⟩
  | destroy =>
    obtain rfl := Option.some.inj h
    rw [List.cons_append, unpack_makeHeader (fieldsAllowed_zero _)]
    rfl

/-- What is unpacked was packed: the bytes taken are those of the request. -/
theorem pack_of_unpack {bs rest : List Byte} {r : Request} (h : unpack bs = .ok (r, rest)) :
    ∃ p, pack r = some p ∧ bs = p ++ rest := by
  obtain ⟨k, lv, sz, ops, ⟨hlevel, hsize⟩, rfl, hops⟩ := unpack_ok h
  have hcode := (codeOfSize_iff (sizeOfCode sz) sz).mpr rfl
  cases k with
  | mmioRead =>
    obtain rfl : lv = false := by simpa using hlevel
    obtain ⟨offset, rfl, rfl⟩ := unpackOne_iff.mp hops
    exact ⟨_, by rw [pack, hcode, Option.map_some], rfl⟩
  | mmioWrite =>
    obtain rfl : lv = false := by simpa using hlevel
    obtain ⟨offset, value, rfl, rfl⟩ := unpackTwo_iff.mp hops
    exact ⟨_, by rw [pack, hcode, Option.map_some], by simp⟩
  | lineSignal =>
    obtain rfl : sz = 0 := by simpa [isMmioKind] using hsize
    obtain ⟨i, rfl, rfl⟩ := unpackOne_iff.mp hops
    cases lv
    · exact ⟨_, rfl, rfl⟩
    · exact ⟨_, rfl, rfl⟩
  | setLine | clearLine | enableLine | disableLine | create =>
    obtain rfl : lv = false := by simpa using hlevel
    obtain rfl : sz = 0 := by simpa [isMmioKind] using hsize
    obtain ⟨i, rfl, rfl⟩ := unpackOne_iff.mp hops
    exact ⟨_, rfl, rfl⟩
  | destroy =>
    obtain rfl : lv = false := by simpa using hlevel
    obtain rfl : sz = 0 := by simpa [isMmioKind] using hsize
    obtain ⟨rfl, rfl⟩ := Prod.mk.inj (Except.ok.inj hops)
    exact ⟨_, rfl, rfl⟩

/-! ### From a request to its row, and back -/

theorem eq_zero_of_mmioTarget {n : Nat} {offset : Word} (h : mmioTarget n offset = .status) : offset = 0 :=
  BitVec.eq_of_toNat_eq ((mmioTarget_status_iff n offset).mp h)

/-- The instruction that a request goes to stands for that request. -/
theorem requestOf_classify {n : Nat} {r : Request} {i : Instr} (h : classify n r = .ok i) : requestOf i = r := by
  cases r with
  | mmioRead offset size | mmioWrite offset size value =>
    simp only [classify] at h
    split at h <;> obtain rfl := Except.ok.inj h
    · rw [eq_zero_of_mmioTarget ‹mmioTarget n offset = .status›, requestOf]
    · rfl
    · rfl
  | lineSignal i level =>
    simp only [classify] at h
    split at h
    · obtain rfl := Except.ok.inj h
      simp [requestOf, *]
    · split at h
      · obtain rfl := Except.ok.inj h
        simp [requestOf, *]
      · cases h
  | setLine | clearLine | enableLine | disableLine | create | destroy =>
    obtain rfl := Except.ok.inj h
    rfl

theorem mmioTarget_of_lineOffset {n : Nat} {offset : Word} (h : WellFormed.lineOffset n offset = true) :
    mmioTarget n offset = .line (offset.toNat - 4) :=
  mmioTarget_line (by simpa [WellFormed.lineOffset] using h)

theorem mmioTarget_of_invalidOffset {n : Nat} {offset : Word} (h : WellFormed.invalidOffset n offset = true) :
    mmioTarget n offset = .invalid :=
  (mmioTarget_invalid_iff n offset).mpr (by simpa [WellFormed.invalidOffset] using h)

theorem lineOffset_of_mmioTarget {n k : Nat} {offset : Word} (h : mmioTarget n offset = .line k) :
    WellFormed.lineOffset n offset = true := by
  obtain ⟨hlow, hhigh, -⟩ := mmioTarget_line_inv h
  simp [WellFormed.lineOffset, hlow, hhigh]

theorem invalidOffset_of_mmioTarget {n : Nat} {offset : Word} (h : mmioTarget n offset = .invalid) :
    WellFormed.invalidOffset n offset = true := by
  simpa [WellFormed.invalidOffset] using (mmioTarget_invalid_iff n offset).mp h

theorem mmioTarget_zero (n : Nat) : mmioTarget n 0 = .status := (mmioTarget_status_iff n 0).mpr rfl

/-- A well-formed instruction is of the row that its request goes to. -/
theorem classify_requestOf {n : Nat} {i : Instr} (h : WellFormed n i = true) : classify n (requestOf i) = .ok i := by
  cases i with
  | mmioReadStatus | mmioWriteStatus => simp only [requestOf, classify, mmioTarget_zero]
  | mmioReadLine | mmioWriteLine =>
    obtain ⟨-, hoffset⟩ := Bool.and_eq_true_iff.mp h
    simp only [requestOf, classify, mmioTarget_of_lineOffset hoffset]
  | mmioReadInvalid | mmioWriteInvalid =>
    obtain ⟨-, hoffset⟩ := Bool.and_eq_true_iff.mp h
    simp only [requestOf, classify, mmioTarget_of_invalidOffset hoffset]
  | lineRaise | lineLower | setLine | clearLine | enableLine | disableLine | create | destroy => rfl

/-- The instruction of a request that can be packed is well formed. -/
theorem wellFormed_of_classify {n : Nat} {r : Request} {i : Instr} {p : List Byte} (hpack : pack r = some p)
    (h : classify n r = .ok i) : WellFormed n i = true := by
  cases r with
  | mmioRead offset size | mmioWrite offset size value =>
    obtain ⟨sz, hsz, -⟩ := Option.map_eq_some_iff.mp hpack
    have hsize := wellFormed_size_of_isSize (isSize_of_codeOfSize hsz)
    simp only [classify] at h
    split at h <;> obtain rfl := Except.ok.inj h
    · exact hsize
    · exact Bool.and_eq_true_iff.mpr ⟨hsize, lineOffset_of_mmioTarget ‹_›⟩
    · exact Bool.and_eq_true_iff.mpr ⟨hsize, invalidOffset_of_mmioTarget ‹_›⟩
  | lineSignal i level =>
    simp only [classify] at h
    split at h
    · obtain rfl := Except.ok.inj h
      rfl
    · split at h
      · obtain rfl := Except.ok.inj h
        rfl
      · cases h
  | setLine | clearLine | enableLine | disableLine | create | destroy =>
    obtain rfl := Except.ok.inj h
    rfl

theorem encode_of_wellFormed {n : Nat} {i : Instr} (h : WellFormed n i = true) : ∃ p, encode i = some p := by
  cases i with
  | mmioReadStatus | mmioWriteStatus =>
    obtain ⟨sz, hsz⟩ := Laws.codeOfSize_of_wellFormed h
    exact ⟨_, by rw [encode, requestOf, pack, hsz, Option.map_some]⟩
  | mmioReadLine | mmioWriteLine | mmioReadInvalid | mmioWriteInvalid =>
    obtain ⟨hsize, -⟩ := Bool.and_eq_true_iff.mp h
    obtain ⟨sz, hsz⟩ := Laws.codeOfSize_of_wellFormed hsize
    exact ⟨_, by rw [encode, requestOf, pack, hsz, Option.map_some]⟩
  | lineRaise | lineLower | setLine | clearLine | enableLine | disableLine | create | destroy => exact ⟨_, rfl⟩

theorem decode_iff {n : Nat} {bs rest : List Byte} {i : Instr} :
    decode n bs = .ok (i, rest) ↔ ∃ r, unpack bs = .ok (r, rest) ∧ classify n r = .ok i := by
  unfold decode
  constructor
  · intro h
    split at h
    · cases h
    · split at h
      · cases h
      · obtain ⟨rfl, rfl⟩ := Prod.mk.inj (Except.ok.inj h)
        exact ⟨_, ‹_›, ‹_›⟩
  · rintro ⟨r, hunpack, hclassify⟩
    simp only [hunpack, hclassify]

/-! ### The statements -/

/-- Settles O32: the encoding of an instruction packs its request, and unpacking and the address decode give both
back. -/
theorem decodeOfEncode : Obligations.DecodeOfEncode := by
  unfold Obligations.DecodeOfEncode
  intro n i hwf
  obtain ⟨p, hencode⟩ := encode_of_wellFormed hwf
  exact ⟨p, hencode, fun rest => decode_iff.mpr ⟨_, unpack_pack hencode rest, classify_requestOf hwf⟩⟩

/-- Settles O33: what is decoded was packed from a request whose row the instruction is. -/
theorem encodeOfDecode : Obligations.EncodeOfDecode := by
  unfold Obligations.EncodeOfDecode
  intro n bs rest i hdecode
  obtain ⟨r, hunpack, hclassify⟩ := decode_iff.mp hdecode
  obtain ⟨p, hpack, rfl⟩ := pack_of_unpack hunpack
  exact ⟨wellFormed_of_classify hpack hclassify, p, by rw [encode, requestOf_classify hclassify, hpack], rfl⟩

end Sys2Proof.Machine
end

section
/-! SUPPORT. What a request can answer (spec 30_encoding.md R43 to R45, R48; 45_lifecycle.md R82): every outcome of an
instruction that is no next state, the refusals of a request that its life forbids, and the outcomes of a step. -/

namespace Sys2Proof.Machine

/-! ### The outcomes of an instruction -/

/-- What instruction `i` can answer in state `s`, and why: only an ill-formed one is refused for its size, only one that
is not of its request's row for its operands, and the bank faults only at a served index inside NUM_LINES and outside
the array. -/
inductive Answers (i : Instr) (s : State) : Host.Outcome State Fault Refusal → Prop
  | next (t : State) : Answers i s (.next t)
  | noInstance (hlife : ¬s.Serving ∨ ∃ n, i = .create n) : Answers i s (.refused .noInstance)
  | unsupportedSize (size : Nat) (hill : ¬WellFormed s.numLines i = true) :
      Answers i s (.refused (.unsupportedSize size))
  | operandCondition (hrow : classify s.numLines (requestOf i) ≠ .ok i) : Answers i s (.refused .operandCondition)
  | bankIndex {k : Nat} (hserving : s.Serving) (hlength : s.line.length ≤ k) (hk : k < s.numLines) :
      Answers i s (.fault (.bankIndex k))

section
variable {i : Instr} {s : State}

theorem answers_whenServed {k : Host.Outcome State Fault Refusal} (h : s.Serving → Answers i s k) :
    Answers i s (whenServed s k) := by
  unfold whenServed
  split
  · exact h ((served_iff s).mp ‹_›)
  · exact .noInstance (.inl (mt (served_iff s).mpr ‹_›))

theorem answers_whenCreatable {n : Word} {k : Host.Outcome State Fault Refusal} (h : Answers (.create n) s k) :
    Answers (.create n) s (whenCreatable s k) := by
  unfold whenCreatable
  split
  · exact h
  · exact .noInstance (.inr ⟨n, rfl⟩)

theorem answers_whenSized {size : Nat} {k : Host.Outcome State Fault Refusal}
    (hsize : WellFormed s.numLines i = true → WellFormed.size size = true) (h : Answers i s k) :
    Answers i s (whenSized size k) := by
  unfold whenSized
  split
  · exact h
  · exact .unsupportedSize size fun hwf => absurd ((sizeSupported_eq_wellFormed size).trans (hsize hwf)) ‹_›

theorem answers_whenLineTarget {offset : Word} {k : Nat → Host.Outcome State Fault Refusal}
    (hrow : (∀ j, mmioTarget s.numLines offset ≠ .line j) → classify s.numLines (requestOf i) ≠ .ok i)
    (h : ∀ j, j < s.numLines → Answers i s (k j)) : Answers i s (whenLineTarget s offset k) := by
  unfold whenLineTarget
  cases htarget : mmioTarget s.numLines offset with
  | line j =>
    obtain ⟨hlow, hhigh, rfl⟩ := mmioTarget_line_inv htarget
    exact h _ (by omega)
  | status | invalid => exact .operandCondition (hrow (by simp [htarget]))

theorem answers_whenInvalidTarget {offset : Word} {k : Host.Outcome State Fault Refusal}
    (hrow : mmioTarget s.numLines offset ≠ .invalid → classify s.numLines (requestOf i) ≠ .ok i)
    (h : Answers i s k) : Answers i s (whenInvalidTarget s offset k) := by
  unfold whenInvalidTarget
  cases htarget : mmioTarget s.numLines offset with
  | invalid => exact h
  | status | line j => exact .operandCondition (hrow (by simp [htarget]))

/-- A bank primitive that answers `a` inside the array and faults outside it. -/
theorem answers_ofBank {α : Type} {r : Except Fault α} {a : α} {j : Nat}
    {k : α → Host.Outcome State Fault Refusal} (hserving : s.Serving) (hj : j < s.numLines)
    (hok : j < s.line.length → r = .ok a) (herror : s.line.length ≤ j → r = .error (.bankIndex j))
    (h : Answers i s (k a)) : Answers i s (ofBank r k) := by
  by_cases hlength : j < s.line.length
  · rw [hok hlength]
    exact h
  · rw [herror (Nat.le_of_not_lt hlength)]
    exact .bankIndex hserving (Nat.le_of_not_lt hlength) hj

theorem answers_lineSignal (w : Word) (x : Bool) : Answers i s (whenServed s (lineSignal w x s)) := by
  refine answers_whenServed fun hserving => ?_
  by_cases hw : w.toNat < s.numLines
  · rw [lineSignal, lineIndex, if_pos hw]
    exact answers_ofBank hserving hw (writeLineBit_of_lt _ x) (writeLineBit_of_le _ x) (.next _)
  · rw [lineSignal, lineIndex, if_neg hw]
    exact .next _

theorem answers_manage (w : Word) (pos : Nat) (x : Bool) : Answers i s (whenServed s (manage w pos x s)) := by
  refine answers_whenServed fun hserving => ?_
  cases hindex : managementIndex s.numLines w with
  | none =>
    rw [manage, hindex]
    exact .next _
  | some k =>
    obtain ⟨h0, hlt, rfl⟩ := managementIndex_some hindex
    rw [manage, hindex]
    exact answers_ofBank hserving (by omega) (writeLineBit_of_lt pos x) (writeLineBit_of_le pos x) (.next _)

end

theorem classify_ne_line {n : Nat} {offset : Word} (h : ∀ j, mmioTarget n offset ≠ .line j) (size : Nat)
    (value : Word) : classify n (.mmioRead offset size) ≠ .ok (.mmioReadLine size offset) ∧
      classify n (.mmioWrite offset size value) ≠ .ok (.mmioWriteLine size offset value) := by
  cases htarget : mmioTarget n offset with
  | line j => exact absurd htarget (h j)
  | status | invalid => simp [classify, htarget]

theorem classify_ne_invalid {n : Nat} {offset : Word} (h : mmioTarget n offset ≠ .invalid) (size : Nat)
    (value : Word) : classify n (.mmioRead offset size) ≠ .ok (.mmioReadInvalid size offset) ∧
      classify n (.mmioWrite offset size value) ≠ .ok (.mmioWriteInvalid size offset value) := by
  cases htarget : mmioTarget n offset with
  | invalid => exact absurd htarget h
  | status | line j => simp [classify, htarget]

theorem wellFormed_size_of_and {size : Nat} {c : Bool} (h : (WellFormed.size size && c) = true) :
    WellFormed.size size = true := by
  obtain ⟨hsize, -⟩ := Bool.and_eq_true_iff.mp h
  exact hsize

theorem answers_exec (i : Instr) (s : State) : Answers i s (exec i s) := by
  cases i with
  | mmioReadStatus size => exact answers_whenServed fun _ => answers_whenSized id (.next _)
  | mmioReadLine size offset =>
    exact answers_whenServed fun hserving => answers_whenSized wellFormed_size_of_and <|
      answers_whenLineTarget (fun hrow => (classify_ne_line hrow size 0).1) fun _ hj =>
        answers_ofBank hserving hj readLine_of_lt readLine_of_le (.next _)
  | mmioReadInvalid size offset =>
    exact answers_whenServed fun _ => answers_whenSized wellFormed_size_of_and <|
      answers_whenInvalidTarget (fun hrow => (classify_ne_invalid hrow size 0).1) (.next _)
  | mmioWriteStatus size value => exact answers_whenServed fun _ => answers_whenSized id (.next _)
  | mmioWriteLine size offset value =>
    exact answers_whenServed fun hserving => answers_whenSized wellFormed_size_of_and <|
      answers_whenLineTarget (fun hrow => (classify_ne_line hrow size value).2) fun _ hj =>
        answers_ofBank hserving hj (writeLine_of_lt _) (writeLine_of_le _) (.next _)
  | mmioWriteInvalid size offset value =>
    exact answers_whenServed fun _ => answers_whenSized wellFormed_size_of_and <|
      answers_whenInvalidTarget (fun hrow => (classify_ne_invalid hrow size value).2) (.next _)
  | lineRaise w => exact answers_lineSignal w true
  | lineLower w => exact answers_lineSignal w false
  | setLine w => exact answers_manage w activePos true
  | clearLine w => exact answers_manage w activePos false
  | enableLine w => exact answers_manage w enabledPos true
  | disableLine w => exact answers_manage w enabledPos false
  | create n =>
    refine answers_whenCreatable ?_
    split
    · exact .next _
    · exact .next _
  | destroy => exact answers_whenServed fun _ => .next _

/-- A bank primitive faults only for a served request whose index is inside NUM_LINES and outside the array. -/
theorem exec_fault {i : Instr} {s : State} {r : Fault} (h : exec i s = .fault r) :
    s.Serving ∧ s.line.length < s.numLines := by
  have hanswer := answers_exec i s
  rw [h] at hanswer
  cases hanswer with
  | bankIndex hserving hlength hk => exact ⟨hserving, Nat.lt_of_le_of_lt hlength hk⟩

theorem exec_refused {i : Instr} {s : State} {r : Refusal} (h : exec i s = .refused r) :
    r = .noInstance ∨ (∃ size, r = .unsupportedSize size) ∨
      (r = .operandCondition ∧ classify s.numLines (requestOf i) ≠ .ok i) := by
  have hanswer := answers_exec i s
  rw [h] at hanswer
  cases hanswer with
  | noInstance => exact .inl rfl
  | unsupportedSize size hill => exact .inr (.inl ⟨size, rfl⟩)
  | operandCondition hrow => exact .inr (.inr ⟨rfl, hrow⟩)

/-- Every well-formed request but CREATE runs to completion in a block that serves. -/
theorem exec_completes {i : Instr} {s : State} (hserving : s.Serving) (hsized : s.Sized)
    (hwf : WellFormed s.numLines i = true) (hi : ∀ n, i ≠ .create n) : ∃ t, exec i s = .next t := by
  have hanswer := answers_exec i s
  generalize exec i s = o at hanswer
  cases hanswer with
  | next t => exact ⟨t, rfl⟩
  | noInstance hlife =>
    obtain hnot | ⟨n, hn⟩ := hlife
    · exact absurd hserving hnot
    · exact absurd hn (hi n)
  | unsupportedSize size hill => exact absurd hwf hill
  | operandCondition hrow => exact absurd (classify_requestOf hwf) hrow
  | bankIndex hserving hlength hk => exact absurd hsized (Nat.ne_of_lt (Nat.lt_of_le_of_lt hlength hk))

/-! ### Requests that the life of the block forbids -/

theorem whenServed_of_not {s : State} (h : ¬s.Serving) (k : Host.Outcome State Fault Refusal) :
    whenServed s k = .refused .noInstance := if_neg (mt (served_iff s).mp h)

theorem whenCreatable_of_not {s : State} (h : ¬(s.life = .none ∧ s.fault = none))
    (k : Host.Outcome State Fault Refusal) : whenCreatable s k = .refused .noInstance :=
  if_neg (mt (creatable_iff s).mp h)

theorem whenSized_of_not {size : Nat} (h : ¬IsSize size) (k : Host.Outcome State Fault Refusal) :
    whenSized size k = .refused (.unsupportedSize size) := if_neg (mt (sizeSupported_iff size).mp h)

theorem exec_of_not_serving {i : Instr} {s : State} (hi : ∀ n, i ≠ .create n) (h : ¬s.Serving) :
    exec i s = .refused .noInstance := by
  cases i with
  | create n => exact absurd rfl (hi n)
  | _ => exact whenServed_of_not h _

theorem exec_create_of_not_creatable {s : State} (n : Word) (h : ¬(s.life = .none ∧ s.fault = none)) :
    exec (.create n) s = .refused .noInstance := whenCreatable_of_not h _

/-- In a block that neither serves nor can be created every request is refused. -/
theorem exec_of_no_life {s : State} (hserving : ¬s.Serving) (hcreatable : ¬(s.life = .none ∧ s.fault = none))
    (i : Instr) : exec i s = .refused .noInstance := by
  by_cases hi : ∃ n, i = .create n
  · obtain ⟨n, rfl⟩ := hi
    exact exec_create_of_not_creatable n hcreatable
  · exact exec_of_not_serving (not_exists.mp hi) hserving

theorem exec_of_fault {s : State} (h : s.fault ≠ none) (i : Instr) : exec i s = .refused .noInstance :=
  exec_of_no_life (fun hserving => h hserving.2) (fun hcreatable => h hcreatable.2) i

/-! ### The outcomes of a step -/

theorem step_of_run {s : State} {i : Instr} {rest : List Arrival}
    (h : fetch s.numLines s.busOrder s.inbox = .run i rest) : step s = exec i { s with inbox := rest } := by
  simp only [step, h, setInbox]

theorem step_of_rejected {s : State} {e : DecodeError} (h : fetch s.numLines s.busOrder s.inbox = .rejected e) :
    step s = .refused (refusalOf e s) := by
  simp only [step, h]

theorem step_fault {s : State} {r : Fault} (h : step s = .fault r) :
    ∃ i rest, exec i (setInbox rest s) = .fault r := by
  unfold step at h
  split at h
  · cases h
  · exact ⟨_, _, h⟩
  · cases h
  · cases h

theorem step_refused {s : State} {r : Refusal} (h : step s = .refused r) :
    (∃ e, fetch s.numLines s.busOrder s.inbox = .rejected e ∧ r = refusalOf e s) ∨ r = .concurrent ∨
    ∃ i rest, fetch s.numLines s.busOrder s.inbox = .run i rest ∧ exec i (setInbox rest s) = .refused r := by
  unfold step at h
  split at h
  · cases h
  · exact .inr (.inr ⟨_, _, ‹_›, h⟩)
  · exact .inl ⟨_, ‹_›, (Host.Outcome.refused.inj h).symm⟩
  · exact .inr (.inl (Host.Outcome.refused.inj h).symm)

theorem fetchRequest_run {n : Nat} {r : Request} {rest rest' : List Arrival} {i : Instr}
    (h : fetchRequest n r rest = .run i rest') : classify n r = .ok i := by
  unfold fetchRequest at h
  split at h
  · cases h
    assumption
  · cases h

theorem fetch_of_decode_ok {n : Nat} {order : Config.ByteOrder} {b : Byte} {bs tail : List Byte} {i : Instr}
    (rest : List Arrival) (h : decode n (b :: bs) = .ok (i, tail)) :
    fetch n order (.bytes (b :: bs) :: rest) = .run i (putBack tail rest) := by
  simp only [fetch, h]

theorem fetch_of_decode_error {n : Nat} {order : Config.ByteOrder} {b : Byte} {bs : List Byte} {e : DecodeError}
    (rest : List Arrival) (h : decode n (b :: bs) = .error e) :
    fetch n order (.bytes (b :: bs) :: rest) = .rejected e := by
  simp only [fetch, h]

/-- An instruction that is fetched is of the row that its request goes to. -/
theorem fetch_run {n : Nat} {order : Config.ByteOrder} {inbox rest : List Arrival} {i : Instr}
    (h : fetch n order inbox = .run i rest) : classify n (requestOf i) = .ok i := by
  have of_classify : ∀ {r}, classify n r = .ok i → classify n (requestOf i) = .ok i := fun hr =>
    (requestOf_classify hr).symm ▸ hr
  induction inbox with
  | nil => cases h
  | cons a inbox ih =>
    cases a with
    | bytes bs =>
      cases bs with
      | nil => exact ih h
      | cons b bs =>
        cases hdecode : decode n (b :: bs) with
        | error e => cases (fetch_of_decode_error inbox hdecode).symm.trans h
        | ok p =>
          cases (fetch_of_decode_ok inbox hdecode).symm.trans h
          obtain ⟨r, -, hclassify⟩ := decode_iff.mp hdecode
          exact of_classify hclassify
    | call r => exact of_classify (fetchRequest_run h)
    | busWrite offset lanes => exact of_classify (fetchRequest_run h)
    | overlap first second => cases h

/-! ### Reserved headers -/

theorem kindOfCode_eq_none_iff (code : BitVec 4) :
    kindOfCode code = none ↔ code.toNat = 0 ∨ 0xA ≤ code.toNat := by
  revert code
  decide

theorem lineSignal_ne_iff_code (k : Kind) : k ≠ .lineSignal ↔ (codeOfKind k).toNat ≠ 3 := by
  cases k <;> decide

theorem isMmioKind_eq_false_iff_code (k : Kind) :
    isMmioKind k = false ↔ (codeOfKind k).toNat ≠ 1 ∧ (codeOfKind k).toNat ≠ 2 := by
  cases k <;> decide

/-- The reserved header bytes, in the fields of R48. -/
theorem readHeader_eq_none_iff (b : Byte) : readHeader b = none ↔
    (b.extractLsb' 4 4).toNat = 0 ∨ 0xA ≤ (b.extractLsb' 4 4).toNat ∨ b.getLsbD 2 = true ∨
    (b.getLsbD 3 = true ∧ (b.extractLsb' 4 4).toNat ≠ 3) ∨
    (b.extractLsb' 0 2 ≠ 0 ∧ (b.extractLsb' 4 4).toNat ≠ 1 ∧ (b.extractLsb' 4 4).toNat ≠ 2) := by
  cases hk : kindOfCode (b.extractLsb' 4 4) with
  | none =>
    have hcode := (kindOfCode_eq_none_iff _).mp hk
    simp only [readHeader, hk, true_iff]
    omega
  | some k =>
    have hcode : ¬kindOfCode (b.extractLsb' 4 4) = none := by simp [hk]
    obtain ⟨hzero, hhigh⟩ := not_or.mp (mt (kindOfCode_eq_none_iff _).mpr hcode)
    have hsignal := lineSignal_ne_iff_code k
    have hmmio := isMmioKind_eq_false_iff_code k
    rw [← (kindOfCode_iff _ k).mp hk] at hsignal hmmio
    simp only [readHeader, hk, hzero, hhigh, ← hsignal, ← hmmio, false_or]
    split_ifs with hbit hlevel hsize
    · simp only [hbit, true_or]
    · simp_all
    · simp_all
    · simp_all

theorem unpackOne_error {mk : Word → Request} {bs : List Byte} {e : DecodeError}
    (h : unpackOne mk bs = .error e) : e = .truncated := by
  unfold unpackOne at h
  split at h
  · exact (Except.error.inj h).symm
  · cases h

theorem unpackTwo_error {mk : Word → Word → Request} {bs : List Byte} {e : DecodeError}
    (h : unpackTwo mk bs = .error e) : e = .truncated := by
  unfold unpackTwo at h
  split at h
  · exact (Except.error.inj h).symm
  · exact unpackOne_error h

theorem unpackOperands_error {k : Kind} {lv : Bool} {sz : BitVec 2} {bs : List Byte} {e : DecodeError}
    (h : unpackOperands k lv sz bs = .error e) : e = .truncated := by
  cases k with
  | mmioWrite => exact unpackTwo_error h
  | destroy => cases h
  | _ => exact unpackOne_error h

theorem classify_error {n : Nat} {r : Request} {e : DecodeError} (h : classify n r = .error e) :
    ∃ lv, e = .badLevel lv := by
  cases r with
  | mmioRead | mmioWrite =>
    simp only [classify] at h
    split at h <;> cases h
  | lineSignal i level =>
    simp only [classify] at h
    split at h
    · cases h
    · split at h
      · cases h
      · exact ⟨level, (Except.error.inj h).symm⟩
  | _ => cases h

theorem decode_reserved_iff (n : Nat) (b c : Byte) (bs : List Byte) :
    decode n (b :: bs) = .error (.reservedEncoding c) ↔ readHeader b = none ∧ c = b := by
  constructor
  · intro h
    cases hheader : readHeader b with
    | none =>
      simp only [decode, unpack, hheader] at h
      cases h
      exact ⟨rfl, rfl⟩
    | some fields =>
      simp only [decode, unpack, hheader] at h
      split at h
      · cases h
        cases unpackOperands_error ‹_›
      · split at h
        · cases h
          obtain ⟨lv, hlv⟩ := classify_error ‹_›
          cases hlv
        · cases h
  · rintro ⟨hheader, rfl⟩
    simp only [decode, unpack, hheader]

theorem refusalOf_eq_reserved {e : DecodeError} {s : State} {b : Byte}
    (h : .reservedEncoding b = refusalOf e s) : e = .reservedEncoding b := by
  cases e with
  | reservedEncoding header =>
    cases h
    rfl
  | truncated => cases h
  | badLevel lv =>
    rw [refusalOf] at h
    split at h <;> cases h

/-! ### The row of a request -/

theorem mmioTarget_eq (n : Nat) (offset : Word) : mmioTarget n offset =
    if offset.toNat = 0 then .status
    else if offset.toNat < 4 ∨ n + 4 ≤ offset.toNat then .invalid
    else .line (offset.toNat - 4) := by
  split_ifs with hzero hinvalid
  · exact (mmioTarget_status_iff n offset).mpr hzero
  · exact (mmioTarget_invalid_iff n offset).mpr (by omega)
  · exact mmioTarget_line (by omega)

/-- A step refuses no term as foreign to its row: the address decode has put the request in it. -/
theorem step_refused_ne {s : State} {r : Refusal} (h : step s = .refused r) :
    r ≠ .operandCondition ∧ ∀ m, r ≠ .notModelled m := by
  obtain ⟨e, -, rfl⟩ | rfl | ⟨i, rest, hfetch, hexec⟩ := step_refused h
  · cases e with
    | reservedEncoding | truncated => simp [refusalOf]
    | badLevel lv =>
      rw [refusalOf]
      split <;> simp
  · simp
  · obtain rfl | ⟨size, rfl⟩ | ⟨-, hrow⟩ := exec_refused hexec
    · simp
    · simp
    · exact absurd (fetch_run hfetch) hrow

/-! ### The statements -/

/-- Settles O17: a fault forbids every request, so a step that answers a next state has run none. -/
theorem faultIsFinal : Obligations.FaultIsFinal := by
  unfold Obligations.FaultIsFinal
  refine fun s hfault => ⟨exec_of_fault hfault, fun t hstep => ?_⟩
  obtain ⟨-, rfl⟩ | ⟨i, rest, -, hexec⟩ := step_next hstep
  · rfl
  · have hrefused := exec_of_fault (s := setInbox rest s) hfault i
    cases hrefused.symm.trans hexec

/-- Settles O18, by the check of the life that stands first in every meaning. -/
theorem requestsNeedTheirLife : Obligations.RequestsNeedTheirLife := by
  unfold Obligations.RequestsNeedTheirLife
  refine fun s i => ⟨exec_of_not_serving, ?_⟩
  rintro n rfl hcreatable
  exact exec_create_of_not_creatable n hcreatable

/-- Settles O19, by the check of the size that stands before the address decode in every MMIO meaning. -/
theorem otherSizesAreRefused : Obligations.OtherSizesAreRefused := by
  unfold Obligations.OtherSizesAreRefused
  intro s size offset value hserving hsize
  have hrefused : ∀ k, whenServed s (whenSized size k) = .refused (.unsupportedSize size) := fun k => by
    rw [whenServed_of hserving, whenSized_of_not hsize]
  exact ⟨hrefused _, hrefused _, hrefused _, hrefused _, hrefused _, hrefused _⟩

/-- Settles O22: a step refuses with ReservedEncoding exactly a header byte that has no fields. -/
theorem reservedHeadersAreRefused : Obligations.ReservedHeadersAreRefused := by
  unfold Obligations.ReservedHeadersAreRefused
  intro s b bs rest hinbox
  rw [← readHeader_eq_none_iff]
  constructor
  · intro hstep
    obtain ⟨e, hfetch, he⟩ | he | ⟨i, rest', -, hexec⟩ := step_refused hstep
    · obtain rfl := refusalOf_eq_reserved he
      rw [hinbox] at hfetch
      cases hdecode : decode s.numLines (b :: bs) with
      | ok p => cases (fetch_of_decode_ok rest hdecode).symm.trans hfetch
      | error e =>
        cases (fetch_of_decode_error rest hdecode).symm.trans hfetch
        exact ((decode_reserved_iff _ b b bs).mp hdecode).1
    · cases he
    · obtain he | ⟨size, he⟩ | ⟨he, -⟩ := exec_refused hexec <;> cases he
  · intro hheader
    have hdecode := (decode_reserved_iff s.numLines b b bs).mpr ⟨hheader, rfl⟩
    rw [step_of_rejected (hinbox ▸ fetch_of_decode_error rest hdecode), refusalOf]

/-- Settles O23: a fault needs an array shorter than NUM_LINES, in a block that serves. -/
theorem bankIndexIsNeverOutOfRange : Obligations.BankIndexIsNeverOutOfRange := by
  unfold Obligations.BankIndexIsNeverOutOfRange
  have sized_never : ∀ (s : State) (i : Instr) (r : Fault), s.Sized → exec i s ≠ .fault r := by
    intro s i r hsized hexec
    obtain ⟨-, hshort⟩ := exec_fault hexec
    exact absurd hsized (Nat.ne_of_lt hshort)
  refine ⟨sized_never, fun s r hinv hstep => ?_⟩
  obtain ⟨i, rest, hexec⟩ := step_fault hstep
  obtain ⟨⟨halive, -⟩, -⟩ := exec_fault hexec
  have hsized : s.Sized := hinv.sized fun hnone => by cases hnone.symm.trans halive
  exact sized_never (setInbox rest s) i r hsized hexec

/-- Settles O24: the target in numbers of the offset, and a step runs only what the address decode has picked. -/
theorem stepPicksTheRightRow : Obligations.StepPicksTheRightRow := by
  unfold Obligations.StepPicksTheRightRow
  refine ⟨fun n size offset => ?_, fun n size offset value => ?_, fun n r i => requestOf_classify, fun s => ?_⟩
  · rw [classify, mmioTarget_eq]
    split_ifs <;> rfl
  · rw [classify, mmioTarget_eq]
    split_ifs <;> rfl
  · exact ⟨fun hstep => (step_refused_ne hstep).1 rfl, fun m hstep => (step_refused_ne hstep).2 m rfl⟩

end Sys2Proof.Machine
end

section
/-! SUPPORT. Two blocks whose signals agree (spec 10_state.md R12, R15; 41_aggregation.md R55): every operation and
every check keeps the agreement, so the two blocks answer every request alike. -/

namespace Sys2Proof.Machine

/-! Sys2Proof.Machine# What the updates of the state keep -/

section
variable {s s' : State}

theorem SameSignals.level_eq (h : SameSignals s s') : level s = level s' := by
  rw [Bool.eq_iff_iff, level_iff, level_iff, Machine.globalEnabled, Machine.globalEnabled, h.globalEnabled, h.length]
  simp only [contributes_iff, h.active, h.enabled]

theorem SameSignals.after_setReply (h : SameSignals s s') (r r' : Reply) :
    SameSignals (setReply r s) (setReply r' s') := { h with }

theorem SameSignals.after_setInbox (h : SameSignals s s') (rest : List Arrival) :
    SameSignals (setInbox rest s) (setInbox rest s') := { h with inbox := rfl }

theorem SameSignals.after_recordFault (h : SameSignals s s') (r : FaultReason) :
    SameSignals (recordFault r s) (recordFault r s') := { h with fault := rfl }

theorem SameSignals.after_writeStatus (h : SameSignals s s') (v : Word) :
    SameSignals (writeStatus v s) (writeStatus v s') := { h with globalEnabled := rfl }

theorem SameSignals.after_aggregate (h : SameSignals s s') : SameSignals (aggregate s) (aggregate s') :=
  { h with
    out := h.level_eq
    pushes := by rw [aggregate_pushes, aggregate_pushes, h.pushes, h.level_eq] }

theorem SameSignals.after_destroyed (h : SameSignals s s') :
    SameSignals { s with life := .destroyed, reply := .nothing } { s' with life := .destroyed, reply := .nothing } :=
  { h with life := rfl }

theorem SameSignals.after_construct (h : SameSignals s s') (n : Nat) :
    SameSignals (construct n s) (construct n s') where
  numLines := rfl
  globalEnabled := rfl
  length := rfl
  active _ := rfl
  enabled _ := rfl
  out := rfl
  pushes := rfl
  life := rfl
  fault := rfl
  inbox := h.inbox
  canAllocate := h.canAllocate
  busOrder := h.busOrder

/-- One register is written in both blocks, by bytes that agree in ACTIVE and ENABLED. -/
theorem SameSignals.after_set (h : SameSignals s s') {k : Nat} {b b' : Byte} (hk : k < s.line.length)
    (hactive : b.getLsbD 0 = b'.getLsbD 0) (henabled : b.getLsbD 7 = b'.getLsbD 7) :
    SameSignals { s with line := s.line.set k b } { s' with line := s'.line.set k b' } := by
  have hreg := lineReg_of_set (t := { s with line := s.line.set k b }) hk rfl
  have hreg' := lineReg_of_set (t := { s' with line := s'.line.set k b' }) (h.length ▸ hk) rfl
  refine { h with length := ?_, active := fun i => ?_, enabled := fun i => ?_ }
  · rw [List.length_set, List.length_set, h.length]
  · rw [hreg, hreg']
    split
    · exact hactive
    · exact h.active i
  · rw [hreg, hreg']
    split
    · exact henabled
    · exact h.enabled i

theorem SameSignals.after_setBit (h : SameSignals s s') {k pos : Nat} (hpos : pos < 8) (x : Bool)
    (hk : k < s.line.length) :
    SameSignals { s with line := s.line.set k (setBit pos x (s.lineReg k)) }
      { s' with line := s'.line.set k (setBit pos x (s'.lineReg k)) } := by
  refine h.after_set hk ?_ ?_
  · rw [getLsbD_setBit _ _ _ hpos _ (by decide), getLsbD_setBit _ _ _ hpos _ (by decide), h.active]
  · rw [getLsbD_setBit _ _ _ hpos _ (by decide), getLsbD_setBit _ _ _ hpos _ (by decide), h.enabled]

end

/-! Sys2Proof.Machine# What the checks and the bank keep -/

/-- Two outcomes alike: next states whose signals agree, or the same fault, or the same refusal. -/
inductive SameOutcome : Host.Outcome State Fault Refusal → Host.Outcome State Fault Refusal → Prop
  | next {t t' : State} (h : SameSignals t t') : SameOutcome (.next t) (.next t')
  | fault (r : Fault) : SameOutcome (.fault r) (.fault r)
  | refused (r : Refusal) : SameOutcome (.refused r) (.refused r)

theorem SameOutcome.exists_next {o : Host.Outcome State Fault Refusal} {t : State} (h : SameOutcome (.next t) o) :
    ∃ t', o = .next t' ∧ SameSignals t t' := by
  cases h with
  | next hsame => exact ⟨_, rfl, hsame⟩

section
variable {s s' : State}

theorem SameSignals.served_eq (h : SameSignals s s') : served s = served s' := by
  rw [served, served, h.life, h.fault]

theorem SameSignals.after_whenServed (h : SameSignals s s') {k k' : Host.Outcome State Fault Refusal}
    (hk : SameOutcome k k') : SameOutcome (whenServed s k) (whenServed s' k') := by
  rw [whenServed, whenServed, h.served_eq]
  split
  · exact hk
  · exact .refused _

theorem SameSignals.after_whenCreatable (h : SameSignals s s') {k k' : Host.Outcome State Fault Refusal}
    (hk : SameOutcome k k') : SameOutcome (whenCreatable s k) (whenCreatable s' k') := by
  rw [whenCreatable, whenCreatable, creatable, creatable, h.life, h.fault]
  split
  · exact hk
  · exact .refused _

theorem SameOutcome.after_whenSized (size : Nat) {k k' : Host.Outcome State Fault Refusal} (hk : SameOutcome k k') :
    SameOutcome (whenSized size k) (whenSized size k') := by
  rw [whenSized, whenSized]
  split
  · exact hk
  · exact .refused _

theorem SameSignals.after_whenLineTarget (h : SameSignals s s') (offset : Word)
    {k k' : Nat → Host.Outcome State Fault Refusal} (hk : ∀ j, SameOutcome (k j) (k' j)) :
    SameOutcome (whenLineTarget s offset k) (whenLineTarget s' offset k') := by
  rw [whenLineTarget, whenLineTarget, h.numLines]
  split
  · exact hk _
  · exact .refused _
  · exact .refused _

theorem SameSignals.after_whenInvalidTarget (h : SameSignals s s') (offset : Word)
    {k k' : Host.Outcome State Fault Refusal} (hk : SameOutcome k k') :
    SameOutcome (whenInvalidTarget s offset k) (whenInvalidTarget s' offset k') := by
  rw [whenInvalidTarget, whenInvalidTarget, h.numLines]
  split
  · exact hk
  · exact .refused _
  · exact .refused _

/-- A bank primitive that, in both blocks, answers inside the array and faults outside it. -/
theorem SameSignals.after_ofBank (h : SameSignals s s') {α : Type} {r r' : Except Fault α} {a a' : α} {j : Nat}
    {k k' : α → Host.Outcome State Fault Refusal}
    (hok : j < s.line.length → r = .ok a) (herror : s.line.length ≤ j → r = .error (.bankIndex j))
    (hok' : j < s'.line.length → r' = .ok a') (herror' : s'.line.length ≤ j → r' = .error (.bankIndex j))
    (hk : j < s.line.length → SameOutcome (k a) (k' a')) : SameOutcome (ofBank r k) (ofBank r' k') := by
  by_cases hj : j < s.line.length
  · rw [hok hj, hok' (h.length ▸ hj)]
    exact hk hj
  · have hle := Nat.le_of_not_lt hj
    rw [herror hle, herror' (h.length ▸ hle)]
    exact .fault _

/-- The end of every request that aggregates. -/
theorem SameSignals.after_aggregated (h : SameSignals s s') (r r' : Reply) :
    SameOutcome (.next (setReply r (aggregate s))) (.next (setReply r' (aggregate s'))) :=
  .next (h.after_aggregate.after_setReply r r')

/-- A write of one bit of a register, and the aggregation after it. -/
theorem SameSignals.after_writeLineBit (h : SameSignals s s') (j : Nat) {pos : Nat} (hpos : pos < 8) (x : Bool)
    (r : Reply) : SameOutcome (ofBank (writeLineBit j pos x s) fun u => .next (setReply r (aggregate u)))
      (ofBank (writeLineBit j pos x s') fun u => .next (setReply r (aggregate u))) :=
  h.after_ofBank (writeLineBit_of_lt pos x) (writeLineBit_of_le pos x) (writeLineBit_of_lt pos x)
    (writeLineBit_of_le pos x) fun hj => (h.after_setBit hpos x hj).after_aggregated r r

theorem SameSignals.after_lineSignal (h : SameSignals s s') (w : Word) (x : Bool) :
    SameOutcome (lineSignal w x s) (lineSignal w x s') := by
  rw [lineSignal, lineSignal, h.numLines]
  split
  · exact .next (h.after_recordFault _)
  · exact h.after_writeLineBit _ (by decide) x _

theorem SameSignals.after_manage (h : SameSignals s s') (w : Word) {pos : Nat} (hpos : pos < 8) (x : Bool) :
    SameOutcome (manage w pos x s) (manage w pos x s') := by
  rw [manage, manage, h.numLines]
  split
  · exact .next (h.after_setReply _ _)
  · exact h.after_writeLineBit _ hpos x _

/-! Sys2Proof.Machine# Every request and every step -/

/-- Two blocks whose signals agree answer every request alike. -/
theorem SameSignals.after_exec (h : SameSignals s s') (i : Instr) : SameOutcome (exec i s) (exec i s') := by
  cases i with
  | mmioReadStatus size => exact h.after_whenServed (.after_whenSized size (h.after_aggregated _ _))
  | mmioReadLine size offset =>
    exact h.after_whenServed <| .after_whenSized size <| h.after_whenLineTarget offset fun j =>
      h.after_ofBank readLine_of_lt readLine_of_le readLine_of_lt readLine_of_le fun _ => h.after_aggregated _ _
  | mmioReadInvalid size offset =>
    exact h.after_whenServed <| .after_whenSized size <| h.after_whenInvalidTarget offset <|
      .next (h.after_setReply _ _)
  | mmioWriteStatus size value =>
    exact h.after_whenServed (.after_whenSized size ((h.after_writeStatus _).after_aggregated _ _))
  | mmioWriteLine size offset value =>
    exact h.after_whenServed <| .after_whenSized size <| h.after_whenLineTarget offset fun j =>
      h.after_ofBank (writeLine_of_lt _) (writeLine_of_le _) (writeLine_of_lt _) (writeLine_of_le _) fun hj =>
        (h.after_set hj rfl rfl).after_aggregated _ _
  | mmioWriteInvalid size offset value =>
    exact h.after_whenServed <| .after_whenSized size <| h.after_whenInvalidTarget offset <|
      .next (h.after_setReply _ _)
  | lineRaise w => exact h.after_whenServed (h.after_lineSignal w true)
  | lineLower w => exact h.after_whenServed (h.after_lineSignal w false)
  | setLine w => exact h.after_whenServed (h.after_manage w (by decide) true)
  | clearLine w => exact h.after_whenServed (h.after_manage w (by decide) false)
  | enableLine w => exact h.after_whenServed (h.after_manage w (by decide) true)
  | disableLine w => exact h.after_whenServed (h.after_manage w (by decide) false)
  | create n =>
    refine h.after_whenCreatable ?_
    rw [h.canAllocate]
    split
    · exact .next (h.after_construct _)
    · exact .next (h.after_recordFault _)
  | destroy => exact h.after_whenServed (.next h.after_destroyed)

theorem SameSignals.refusalOf_eq (h : SameSignals s s') (e : DecodeError) : refusalOf e s = refusalOf e s' := by
  cases e with
  | badLevel lv => rw [refusalOf, refusalOf, h.served_eq]
  | reservedEncoding | truncated => rfl

theorem SameSignals.after_step (h : SameSignals s s') : SameOutcome (step s) (step s') := by
  rw [step, step, h.numLines, h.busOrder, h.inbox]
  split
  · exact .next h
  · exact (h.after_setInbox _).after_exec _
  · exact h.refusalOf_eq _ ▸ .refused _
  · exact .refused _

end

/-- Settles O54: the two steps end alike, so where one answers a next state the other does, and the signals agree. -/
theorem unnamedBitsNeverReachTheOutput : Obligations.UnnamedBitsNeverReachTheOutput := by
  unfold Obligations.UnnamedBitsNeverReachTheOutput
  intro s s' t hsame hstep
  have houtcome := hsame.after_step
  rw [hstep] at houtcome
  exact houtcome.exists_next

end Sys2Proof.Machine
end

section
/-! SUPPORT. The effect of every request, said once (spec 41_aggregation.md R55 to R58; 45_lifecycle.md R79 to R82):
which requests push, what moves the output, how the lifecycle goes, and the invariant that every step and every run
keeps. -/

namespace Sys2Proof.Machine

/-! ### The effect of a request -/

/-- `RegisterWrite s i u`: instruction `i`, one that aggregates, makes of the registers of `s` those of `u`. -/
inductive RegisterWrite (s : State) : Instr → State → Prop
  | readStatus (size : Nat) : RegisterWrite s (.mmioReadStatus size) s
  | readLine (size : Nat) (offset : Word) : RegisterWrite s (.mmioReadLine size offset) s
  | status {size : Nat} (hsize : IsSize size) (v : Word) :
      RegisterWrite s (.mmioWriteStatus size v) (writeStatus (compose v size) s)
  | line {i : Instr} {k : Nat} {b : Byte} (hk : k < s.line.length) (hw : LineWrite i k (s.lineReg k) b) :
      RegisterWrite s i { s with line := s.line.set k b }

/-- What a request that completes does to the state `s`. -/
inductive Effect (s : State) : Instr → State → Prop
  | aggregated {i : Instr} {u : State} (r : Reply) (hserving : s.Serving) (hruns : runsAggregate s.numLines i)
      (hwrite : RegisterWrite s i u) : Effect s i (setReply r (aggregate u))
  | replied {i : Instr} (r : Reply) (hquiet : ¬runsAggregate s.numLines i) : Effect s i (setReply r s)
  | violated {i : Instr} {w : Word} (hi : i = .lineRaise w ∨ i = .lineLower w) (hserving : s.Serving)
      (hw : s.numLines ≤ w.toNat) (hquiet : ¬runsAggregate s.numLines i) :
      Effect s i (recordFault (.contractViolation w.toNat) s)
  | created {n : Word} (hnone : s.life = .none) (hallowed : lineCountAllowed n = true) :
      Effect s (.create n) (construct n.toNat s)
  | constructionFailed (n : Word) (hnone : s.life = .none) :
      Effect s (.create n) (recordFault .constructionFailure s)
  | destroyed (hserving : s.Serving) : Effect s .destroy { s with life := .destroyed, reply := .nothing }

theorem effect_of_lineSignal {i : Instr} {w : Word} {x : Bool} {s t : State}
    (hi : i = .lineRaise w ∨ i = .lineLower w)
    (hruns : runsAggregate s.numLines i ↔ w.toNat < s.numLines)
    (hw : ∀ b, LineWrite i w.toNat b (setBit activePos x b))
    (h : whenServed s (lineSignal w x s) = .next t) : Effect s i t := by
  obtain ⟨hserving, ⟨hout, rfl⟩ | ⟨hin, hk, rfl⟩⟩ := whenServed_lineSignal_next h
  · exact .violated hi hserving hout (mt hruns.mp (Nat.not_lt.mpr hout))
  · exact .aggregated _ hserving (hruns.mpr hin) (.line hk (hw _))

theorem effect_of_manage {i : Instr} {w : Word} {pos : Nat} {x : Bool} {s t : State}
    (hruns : runsAggregate s.numLines i ↔ 0 ≤ w.toInt ∧ w.toInt < s.numLines)
    (hw : ∀ {k : Nat}, w.toInt = k → ∀ b, LineWrite i k b (setBit pos x b))
    (h : whenServed s (manage w pos x s) = .next t) : Effect s i t := by
  obtain ⟨hserving, ⟨hout, rfl⟩ | ⟨hin, hk, rfl⟩⟩ := whenServed_manage_next h
  · exact .replied _ (mt hruns.mp hout)
  · exact .aggregated _ hserving (hruns.mpr hin) (.line hk (hw (Int.toNat_of_nonneg hin.1).symm _))

theorem effect_of_exec {i : Instr} {s t : State} (h : exec i s = .next t) : Effect s i t := by
  cases i with
  | mmioReadStatus size =>
    obtain ⟨hserving, -, rfl⟩ := execMmioReadStatus_next h
    exact .aggregated _ hserving trivial (.readStatus size)
  | mmioReadLine size offset =>
    obtain ⟨hserving, -, -, -, -, rfl⟩ := execMmioReadLine_next h
    exact .aggregated _ hserving trivial (.readLine size offset)
  | mmioReadInvalid size offset =>
    obtain ⟨-, -, -, rfl⟩ := execMmioReadInvalid_next h
    exact .replied _ id
  | mmioWriteStatus size value =>
    obtain ⟨hserving, hsize, rfl⟩ := execMmioWriteStatus_next h
    exact .aggregated _ hserving trivial (.status hsize value)
  | mmioWriteLine size offset value =>
    obtain ⟨hserving, -, hlow, -, hk, rfl⟩ := execMmioWriteLine_next h
    exact .aggregated _ hserving trivial (.line hk (.mmioWriteLine size (Nat.add_sub_of_le hlow).symm value _))
  | mmioWriteInvalid size offset value =>
    obtain ⟨-, -, -, rfl⟩ := execMmioWriteInvalid_next (value := value) h
    exact .replied _ id
  | lineRaise w => exact effect_of_lineSignal (.inl rfl) Iff.rfl (.lineRaise w) h
  | lineLower w => exact effect_of_lineSignal (.inr rfl) Iff.rfl (.lineLower w) h
  | setLine w => exact effect_of_manage Iff.rfl .setLine h
  | clearLine w => exact effect_of_manage Iff.rfl .clearLine h
  | enableLine w => exact effect_of_manage Iff.rfl .enableLine h
  | disableLine w => exact effect_of_manage Iff.rfl .disableLine h
  | create n =>
    obtain ⟨⟨hnone, -⟩, ⟨hallowed, -, rfl⟩ | ⟨-, rfl⟩⟩ := execCreate_next h
    · exact .created hnone hallowed
    · exact .constructionFailed n hnone
  | destroy =>
    obtain ⟨hserving, rfl⟩ := execDestroy_next h
    exact .destroyed hserving

/-! ### What a write of the registers leaves unchanged -/

section
variable {s u : State} {i : Instr}

theorem RegisterWrite.numLines_eq (h : RegisterWrite s i u) : u.numLines = s.numLines := by cases h <;> rfl
theorem RegisterWrite.pushes_eq (h : RegisterWrite s i u) : u.pushes = s.pushes := by cases h <;> rfl
theorem RegisterWrite.life_eq (h : RegisterWrite s i u) : u.life = s.life := by cases h <;> rfl
theorem RegisterWrite.fault_eq (h : RegisterWrite s i u) : u.fault = s.fault := by cases h <;> rfl

theorem RegisterWrite.sized (h : RegisterWrite s i u) (hsized : s.Sized) : u.Sized := by
  cases h with
  | readStatus | readLine | status => exact hsized
  | line => exact (List.length_set ..).trans hsized

theorem RegisterWrite.status_eq (h : RegisterWrite s i u) (hi : ∀ size v, i ≠ .mmioWriteStatus size v) :
    u.status = s.status := by
  cases h with
  | status hsize v => exact absurd rfl (hi _ v)
  | readStatus | readLine | line => rfl

end

/-! ### The formula of the output -/

theorem outputFormula_of_gate_off {s : State} (h : s.status.getLsbD 0 = false) : s.outputFormula = false := by
  rw [State.outputFormula, h, Bool.and_false]

theorem outputFormula_congr {s t : State} (hn : s.numLines = t.numLines) (hl : s.line = t.line)
    (hstatus : s.status = t.status) : s.outputFormula = t.outputFormula := by
  rw [State.outputFormula, State.outputFormula, hn, hstatus, funext (lineReg_congr hl)]

/-- After a request that aggregates, the output is the formula over the registers as they then are. -/
theorem aggregate_fresh {s : State} (hsized : s.Sized) (r : Reply) :
    (setReply r (aggregate s)).out = (setReply r (aggregate s)).outputFormula := by
  rw [setReply_out, aggregate_out, level_eq_outputFormula hsized]
  exact outputFormula_congr rfl rfl rfl

theorem construct_fresh (n : Nat) (s : State) : (construct n s).out = (construct n s).outputFormula :=
  (outputFormula_of_gate_off (by simp)).symm

theorem aggregate_of_fresh {s : State} (hsized : s.Sized) (hout : s.out = s.outputFormula) :
    aggregate s = { s with pushes := s.pushes ++ [s.out] } := by
  rw [aggregate_eq_aggregated hsized, State.aggregated, ← hout]

/-! ### The invariant -/

theorem construct_inv {n : Word} (s : State) (h : lineCountAllowed n = true) : (construct n.toNat s).Inv where
  linesInDomain := by simpa [lineCountAllowed, Config.offsetSpace] using h
  sized _ := construct_sized _ s
  unborn hnone := by cases hnone
  outFollows := construct_fresh _ s
  lastPush := rfl
  faultFits := rfl

theorem State.Inv.setInbox {s : State} (h : s.Inv) (rest : List Arrival) : (setInbox rest s).Inv := { h with }

theorem faultFits_of_none {s : State} (h : s.fault = none) : s.faultFits = true := by
  rw [State.faultFits, h]

theorem State.Inv.sized_of_serving {s : State} (h : s.Inv) (hserving : s.Serving) : s.Sized :=
  h.sized fun hnone => by cases hnone.symm.trans hserving.1

/-- Every request that completes keeps the invariant. -/
theorem Effect.inv {s t : State} {i : Instr} (h : Effect s i t) (hinv : s.Inv) : t.Inv := by
  cases h with
  | aggregated r hserving hruns hwrite =>
    have hsized := hwrite.sized (hinv.sized_of_serving hserving)
    obtain ⟨halive, hfault⟩ := hserving
    have halive' := hwrite.life_eq.trans halive
    exact
      { linesInDomain := hwrite.numLines_eq ▸ hinv.linesInDomain
        sized := fun _ => hsized
        unborn := fun hnone => by cases hnone.symm.trans halive'
        outFollows := aggregate_fresh hsized r
        lastPush := by simp
        faultFits := faultFits_of_none (hwrite.fault_eq.trans hfault) }
  | replied r hquiet => exact { hinv with }
  | violated hi hserving hw hquiet =>
    exact { hinv with faultFits := by simp [State.faultFits, hserving.1, hw] }
  | created hnone hallowed => exact construct_inv s hallowed
  | constructionFailed n hnone => exact { hinv with faultFits := by simp [State.faultFits, hnone] }
  | destroyed hserving =>
    have hsized := hinv.sized_of_serving hserving
    exact
      { hinv with
        sized := fun _ => hsized
        unborn := fun hnone => by cases hnone
        faultFits := faultFits_of_none hserving.2 }

/-- Every request only adds to the history of pushes; CREATE finds it empty. -/
theorem Effect.pushes_extend {s t : State} {i : Instr} (h : Effect s i t) (hinv : s.Inv) :
    ∃ more, t.pushes = s.pushes ++ more := by
  cases h with
  | aggregated r hserving hruns hwrite =>
    exact ⟨[level _], by rw [setReply_pushes, aggregate_pushes, hwrite.pushes_eq]⟩
  | created hnone hallowed =>
    obtain ⟨-, -, hpushes⟩ := hinv.unborn hnone
    exact ⟨[], by simp [hpushes]⟩
  | replied | violated | constructionFailed | destroyed => exact ⟨[], by simp⟩

theorem step_keeps_inv {s t : State} (hinv : s.Inv) (h : step s = .next t) :
    t.Inv ∧ ∃ more, t.pushes = s.pushes ++ more := by
  obtain ⟨-, rfl⟩ | ⟨i, rest, -, hexec⟩ := step_next h
  · exact ⟨hinv, [], by simp⟩
  · have heffect := effect_of_exec hexec
    exact ⟨heffect.inv (hinv.setInbox rest), heffect.pushes_extend (hinv.setInbox rest)⟩

theorem run_succ_next {M : Host.Core} {k : Nat} {s t : M.State} (h : M.run (k + 1) s = .next t) :
    ∃ u, M.step s = .next u ∧ M.run k u = .next t := by
  rw [Host.Core.run] at h
  split at h
  · exact ⟨_, ‹_›, h⟩
  · cases h
  · cases h

/-! ### The bits that the writes of the registers reach -/

theorem getLsbD_active_setBit_enabled (x : Bool) (b : Byte) : (setBit enabledPos x b).getLsbD 0 = b.getLsbD 0 :=
  getLsbD_setBit enabledPos x b (by decide) 0 (by decide)

/-- A write of ACTIVE or ENABLED leaves bits 6:1. -/
theorem reservedBits_setBit {pos : Nat} (hpos : pos = activePos ∨ pos = enabledPos) (x : Bool) (b : Byte) :
    (setBit pos x b).extractLsb' 1 6 = b.extractLsb' 1 6 := by
  refine BitVec.eq_of_getLsbD_eq fun j hj => ?_
  have hpos' : pos = 0 ∨ pos = 7 := hpos
  rw [BitVec.getLsbD_extractLsb', BitVec.getLsbD_extractLsb',
    getLsbD_setBit pos x b (by omega) (1 + j) (by omega), if_neg (by omega)]

/-- The writes that can change ACTIVE are those of R16. -/
theorem LineWrite.writer_of_active_ne {i : Instr} {j : Nat} {b b' : Byte} (h : LineWrite i j b b')
    (hne : b'.getLsbD 0 ≠ b.getLsbD 0) :
    (∃ k, (i = .lineRaise k ∨ i = .lineLower k) ∧ k.toNat = j) ∨
    (∃ k, (i = .setLine k ∨ i = .clearLine k) ∧ k.toInt = j) ∨
    (∃ size offset v, i = .mmioWriteLine size offset v ∧ offset.toNat = 4 + j) := by
  cases h with
  | lineRaise w => exact .inl ⟨w, .inl rfl, rfl⟩
  | lineLower w => exact .inl ⟨w, .inr rfl, rfl⟩
  | setLine hk => exact .inr (.inl ⟨_, .inl rfl, hk⟩)
  | clearLine hk => exact .inr (.inl ⟨_, .inr rfl, hk⟩)
  | enableLine | disableLine => exact absurd (getLsbD_active_setBit_enabled _ b) hne
  | mmioWriteLine size hk value => exact .inr (.inr ⟨size, _, value, rfl, hk⟩)

/-- Only an MMIO write to the register writes its reserved bits, and it stores those of the value. -/
theorem LineWrite.reservedBits_cases {i : Instr} {j : Nat} {b b' : Byte} (h : LineWrite i j b b') :
    b'.extractLsb' 1 6 = b.extractLsb' 1 6 ∨
    ∃ size offset v, i = .mmioWriteLine size offset v ∧ offset.toNat = 4 + j ∧
      b'.extractLsb' 1 6 = v.extractLsb' 1 6 := by
  cases h with
  | lineRaise | lineLower | setLine | clearLine => exact .inl (reservedBits_setBit (.inl rfl) _ b)
  | enableLine | disableLine => exact .inl (reservedBits_setBit (.inr rfl) _ b)
  | mmioWriteLine size hk value =>
    refine .inr ⟨size, _, value, rfl, hk, BitVec.eq_of_getLsbD_eq fun j hj => ?_⟩
    rw [byteAt_zero, BitVec.getLsbD_extractLsb', BitVec.getLsbD_extractLsb', BitVec.getLsbD_extractLsb',
      decide_eq_true (show 1 + j < 8 by omega), Bool.true_and, Nat.zero_add]

theorem contributes_setBit_active (x : Bool) (b : Byte) : contributes (setBit activePos x b) = (x && enabled b) := by
  rw [contributes, active_setBit_active, enabled_setBit_active]

theorem contributes_setBit_enabled (x : Bool) (b : Byte) :
    contributes (setBit enabledPos x b) = (active b && x) := by
  rw [contributes, active_setBit_enabled, enabled_setBit_enabled]

theorem contributes_lowByte (v : Word) : contributes (byteAt v 0) = (v.getLsbD 0 && v.getLsbD 7) := by
  rw [contributes, byteAt_zero, active_lowByte, enabled_lowByte]

/-! ### What moves the output -/

/-- The requests that can clear ACTIVE, ENABLED or GLOBAL_ENABLED. -/
def CanLower (i : Instr) : Prop :=
  (∃ k, i = .lineLower k ∨ i = .clearLine k ∨ i = .disableLine k) ∨
  (∃ size v, i = .mmioWriteStatus size v ∧ v.getLsbD 0 = false) ∨
  (∃ size offset v, i = .mmioWriteLine size offset v ∧ (v.getLsbD 0 && v.getLsbD 7) = false)

/-- The requests that can set ACTIVE, ENABLED or GLOBAL_ENABLED. -/
def CanRaise (i : Instr) : Prop :=
  (∃ k, i = .lineRaise k ∨ i = .setLine k ∨ i = .enableLine k) ∨
  (∃ size v, i = .mmioWriteStatus size v ∧ v.getLsbD 0 = true) ∨
  (∃ size offset v, i = .mmioWriteLine size offset v ∧ (v.getLsbD 0 && v.getLsbD 7) = true)

theorem LineWrite.canLower {i : Instr} {k : Nat} {b b' : Byte} (h : LineWrite i k b b')
    (hb : contributes b = true) (hb' : contributes b' = false) : CanLower i := by
  obtain ⟨hactive, henabled⟩ := Bool.and_eq_true_iff.mp hb
  cases h with
  | lineRaise | setLine =>
    rw [contributes_setBit_active, henabled] at hb'
    cases hb'
  | enableLine =>
    rw [contributes_setBit_enabled, hactive] at hb'
    cases hb'
  | lineLower w => exact .inl ⟨w, .inl rfl⟩
  | clearLine => exact .inl ⟨_, .inr (.inl rfl)⟩
  | disableLine => exact .inl ⟨_, .inr (.inr rfl)⟩
  | mmioWriteLine size hk v => exact .inr (.inr ⟨size, _, v, rfl, contributes_lowByte v ▸ hb'⟩)

theorem LineWrite.canRaise {i : Instr} {k : Nat} {b b' : Byte} (h : LineWrite i k b b')
    (hb' : contributes b' = true) : CanRaise i := by
  cases h with
  | lineLower | clearLine =>
    rw [contributes_setBit_active] at hb'
    cases hb'
  | disableLine =>
    rw [contributes_setBit_enabled, Bool.and_false] at hb'
    cases hb'
  | lineRaise w => exact .inl ⟨w, .inl rfl⟩
  | setLine => exact .inl ⟨_, .inr (.inl rfl)⟩
  | enableLine => exact .inl ⟨_, .inr (.inr rfl)⟩
  | mmioWriteLine size hk v => exact .inr (.inr ⟨size, _, v, rfl, contributes_lowByte v ▸ hb'⟩)

theorem globalEnabled_compose {size : Nat} (hsize : IsSize size) (v : Word) :
    globalEnabled ((compose v size).setWidth 32) = v.getLsbD 0 := by
  have hpos : 0 < 8 * size := by omega
  rw [globalEnabled, BitVec.getLsbD_setWidth, getLsbD_compose, decide_eq_true hpos, decide_eq_true (by decide),
    Bool.true_and, Bool.true_and]

theorem RegisterWrite.canLower {s u : State} {i : Instr} (h : RegisterWrite s i u) (hs : level s = true)
    (hu : level u = false) : CanLower i := by
  obtain ⟨hon, j, hj, hcontributes⟩ := (level_iff s).mp hs
  have hnot := mt (level_iff u).mpr (Bool.eq_false_iff.mp hu)
  cases h with
  | readStatus | readLine => cases hs.symm.trans hu
  | status hsize v =>
    refine .inr (.inl ⟨_, v, rfl, Bool.eq_false_iff.mpr fun hv => hnot ⟨?_, j, hj, hcontributes⟩⟩)
    exact (globalEnabled_compose hsize v).trans hv
  | @line _ k b hk hw =>
    have hreg := lineReg_of_set (t := { s with line := s.line.set k b }) hk rfl j
    have hlow : contributes (State.lineReg { s with line := s.line.set k b } j) = false :=
      Bool.eq_false_iff.mpr fun hcontr => hnot ⟨hon, j, by rwa [List.length_set], hcontr⟩
    by_cases hjk : j = k
    · subst hjk
      rw [hreg, if_pos rfl] at hlow
      exact hw.canLower hcontributes hlow
    · rw [hreg, if_neg hjk] at hlow
      cases hcontributes.symm.trans hlow

theorem RegisterWrite.canRaise {s u : State} {i : Instr} (h : RegisterWrite s i u) (hs : level s = false)
    (hu : level u = true) : CanRaise i := by
  obtain ⟨hon, j, hj, hcontributes⟩ := (level_iff u).mp hu
  have hnot := mt (level_iff s).mpr (Bool.eq_false_iff.mp hs)
  cases h with
  | readStatus | readLine => cases hs.symm.trans hu
  | status hsize v => exact .inr (.inl ⟨_, v, rfl, (globalEnabled_compose hsize v).symm.trans hon⟩)
  | @line _ k b hk hw =>
    rw [lineReg_of_set hk rfl j] at hcontributes
    by_cases hjk : j = k
    · rw [if_pos hjk] at hcontributes
      exact hw.canRaise hcontributes
    · rw [if_neg hjk] at hcontributes
      exact absurd ⟨hon, j, by rwa [List.length_set] at hj, hcontributes⟩ hnot

/-- A request after which the output differs has aggregated, from the level that the output had. -/
theorem Effect.aggregated_of_out_ne {s t : State} {i : Instr} (h : Effect s i t) (hinv : s.Inv)
    (hne : t.out ≠ s.out) :
    ∃ u r, t = setReply r (aggregate u) ∧ RegisterWrite s i u ∧ s.Serving ∧ level s = s.out := by
  cases h with
  | aggregated r hserving hruns hwrite =>
    exact ⟨_, r, rfl, hwrite, hserving,
      (level_eq_outputFormula (hinv.sized_of_serving hserving)).trans hinv.outFollows.symm⟩
  | created hnone hallowed =>
    obtain ⟨-, hout, -⟩ := hinv.unborn hnone
    exact absurd hout.symm hne
  | replied | violated | constructionFailed | destroyed => exact absurd rfl hne

/-! ### The statements -/

/-- Settles O52: a step that runs a request has its effect, and every effect keeps the invariant. -/
theorem stepKeepsTheInvariant : Obligations.StepKeepsTheInvariant := by
  unfold Obligations.StepKeepsTheInvariant
  intro s t hinv hstep
  obtain ⟨hinv', -⟩ := step_keeps_inv hinv hstep
  exact hinv'

/-- Settles O53, by induction on the number of steps. -/
theorem runsKeepTheInvariantAndTheHistory : Obligations.RunsKeepTheInvariantAndTheHistory := by
  unfold Obligations.RunsKeepTheInvariantAndTheHistory
  intro k
  induction k with
  | zero =>
    rintro s t hinv hrun
    cases hrun
    exact ⟨hinv, [], by simp⟩
  | succ k ih =>
    intro s t hinv hrun
    obtain ⟨u, hstep, hrun'⟩ := run_succ_next hrun
    obtain ⟨hinv', first, hfirst⟩ := step_keeps_inv hinv hstep
    obtain ⟨hinv'', later, hlater⟩ := ih u t hinv' hrun'
    exact ⟨hinv'', first ++ later, by rw [hlater, hfirst, List.append_assoc]⟩

/-- Settles O51: the state after reset is a construction, and before creation the status register is 0. -/
theorem resetMeetsTheInvariant : Obligations.ResetMeetsTheInvariant := by
  unfold Obligations.ResetMeetsTheInvariant
  have hreset : State.reset = construct (64#64).toNat State.uncreated := rfl
  refine ⟨hreset ▸ construct_inv _ (by decide), ?_⟩
  exact
    { linesInDomain := by decide
      sized := fun hlife => absurd rfl hlife
      unborn := fun _ => ⟨rfl, rfl, rfl⟩
      outFollows := (outputFormula_of_gate_off rfl).symm
      lastPush := rfl
      faultFits := rfl }

/-- Settles O37, by the effect of the request. -/
theorem whichRequestsPush : Obligations.WhichRequestsPush := by
  unfold Obligations.WhichRequestsPush
  intro s t i hexec
  have heffect := effect_of_exec hexec
  cases heffect with
  | aggregated r hserving hruns hwrite =>
    refine ⟨fun _ => ?_, fun hquiet => absurd hruns hquiet, ?_⟩
    · simp [hwrite.pushes_eq]
    · rintro n rfl
      exact hruns.elim
  | replied r hquiet =>
    exact ⟨fun hruns => absurd hruns hquiet, fun _ _ => ⟨rfl, rfl, rfl, rfl⟩, fun _ _ => .inl rfl⟩
  | violated hi hserving hw hquiet =>
    exact ⟨fun hruns => absurd hruns hquiet, fun _ _ => ⟨rfl, rfl, rfl, rfl⟩, fun _ _ => .inl rfl⟩
  | created => exact ⟨False.elim, fun _ hother => absurd rfl (hother _), fun _ _ => .inr rfl⟩
  | constructionFailed n => exact ⟨False.elim, fun _ hother => absurd rfl (hother n), fun _ _ => .inl rfl⟩
  | destroyed => exact ⟨False.elim, fun _ _ => ⟨rfl, rfl, rfl, rfl⟩, fun _ _ => .inl rfl⟩

/-- Settles O38: a request either aggregates, or creates the block with a closed gate, or leaves all that the formula
reads. -/
theorem outputIsNeverStale : Obligations.OutputIsNeverStale := by
  unfold Obligations.OutputIsNeverStale
  intro s t i hsized hout hexec
  cases effect_of_exec hexec with
  | aggregated r hserving hruns hwrite =>
    have hsized' := hwrite.sized hsized
    exact ⟨hsized', aggregate_fresh hsized' r⟩
  | created => exact ⟨construct_sized _ s, construct_fresh _ s⟩
  | replied | violated | constructionFailed | destroyed => exact ⟨hsized, hout⟩

/-- Settles O39: an aggregation over unchanged registers pushes the level that is on the output. -/
theorem readsOnlyPush : Obligations.ReadsOnlyPush := by
  unfold Obligations.ReadsOnlyPush
  intro s t size offset hsized hout
  refine ⟨fun hexec => ?_, fun hexec => ?_, fun hexec => ?_⟩
  · obtain ⟨-, -, rfl⟩ := execMmioReadStatus_next hexec
    rw [aggregate_of_fresh hsized hout]
    rfl
  · obtain ⟨-, -, -, -, -, rfl⟩ := execMmioReadLine_next hexec
    rw [aggregate_of_fresh hsized hout]
    rfl
  · obtain ⟨-, -, -, rfl⟩ := execMmioReadInvalid_next hexec
    rfl

/-- Settles O40, by the effect of the request. -/
theorem statusHasOneWriter : Obligations.StatusHasOneWriter := by
  unfold Obligations.StatusHasOneWriter
  intro s t i hexec hwriter hcreate
  cases effect_of_exec hexec with
  | aggregated r hserving hruns hwrite => exact hwrite.status_eq hwriter
  | created => exact absurd rfl (hcreate _)
  | replied | violated | constructionFailed | destroyed => rfl

/-- Settles O42: a register that changes is written by the instruction, and three kinds of write reach bit 0. -/
theorem activeIsLatched : Obligations.ActiveIsLatched := by
  unfold Obligations.ActiveIsLatched
  intro s t i j hlife hexec hne
  obtain heq | hwrite := (lineEffect_of_exec hlife hexec).lineReg_cases j
  · exact absurd (by rw [heq]) hne
  · exact hwrite.writer_of_active_ne hne

/-- Settles O43: a register that changes is written by the instruction, and one kind of write reaches bits 6:1. -/
theorem reservedBitsHoldTheLastWrite : Obligations.ReservedBitsHoldTheLastWrite := by
  unfold Obligations.ReservedBitsHoldTheLastWrite
  intro s t i j hlife hexec
  obtain heq | hwrite := (lineEffect_of_exec hlife hexec).lineReg_cases j
  · exact .inl (by rw [heq])
  · exact hwrite.reservedBits_cases

/-- Settles O45, by the effect of the request. -/
theorem lifecycleOnlyGoesForward : Obligations.LifecycleOnlyGoesForward := by
  unfold Obligations.LifecycleOnlyGoesForward
  intro s t i hexec
  cases effect_of_exec hexec with
  | aggregated r hserving hruns hwrite => exact .inl hwrite.life_eq
  | created hnone => exact .inr (.inl ⟨hnone, rfl, _, rfl⟩)
  | destroyed hserving => exact .inr (.inr ⟨hserving.1, rfl, rfl⟩)
  | replied | violated | constructionFailed => exact .inl rfl

/-- Settles O46: the output moves only by an aggregation, over one written register. -/
theorem whatMovesTheOutput : Obligations.WhatMovesTheOutput := by
  unfold Obligations.WhatMovesTheOutput
  intro s t i hinv hexec
  have heffect := effect_of_exec hexec
  refine ⟨fun hs ht => ?_, fun hs ht => ?_⟩
  · obtain ⟨u, r, rfl, hwrite, -, hlevel⟩ := heffect.aggregated_of_out_ne hinv (by simp [hs, ht])
    exact hwrite.canLower (hlevel.trans hs) ht
  · obtain ⟨u, r, rfl, hwrite, hserving, hlevel⟩ := heffect.aggregated_of_out_ne hinv (by simp [hs, ht])
    obtain ⟨hon, j, hj, hcontributes⟩ := (level_iff u).mp ht
    obtain ⟨-, henabled⟩ := (contributes_iff _).mp hcontributes
    have hsized : u.line.length = u.numLines := hwrite.sized (hinv.sized_of_serving hserving)
    exact ⟨hwrite.canRaise (hlevel.trans hs) ht, hwrite.life_eq.trans hserving.1, hon, j, hsized ▸ hj, henabled⟩

end Sys2Proof.Machine
end

section
/-! SUPPORT. What each request answers where it completes (spec 42_mmio.md, 43_line_signal.md, 44_management.md,
45_lifecycle.md), as an equation of whole states. -/

namespace Sys2Proof.Machine

/-! ### One bit of one register -/

theorem setBit_of_getLsbD {pos : Nat} {x : Bool} {b : Byte} (hpos : pos < 8) (h : b.getLsbD pos = x) :
    setBit pos x b = b := by
  refine BitVec.eq_of_getLsbD_eq fun k hk => ?_
  rw [getLsbD_setBit pos x b hpos k hk]
  split
  · subst k
    exact h.symm
  · rfl

theorem set_lineReg_self (s : State) (k : Nat) : s.line.set k (s.lineReg k) = s.line := by
  by_cases hk : k < s.line.length
  · simp [State.lineReg, hk]
  · exact List.set_eq_of_length_le (Nat.le_of_not_lt hk)

/-- `s` with bit `pos` of line register `k` written (R8). -/
def State.withBit (s : State) (k pos : Nat) (x : Bool) : State :=
  { s with line := s.line.set k (setBit pos x (s.lineReg k)) }

theorem withBit_sized {s : State} (hsized : s.Sized) (k pos : Nat) (x : Bool) : (s.withBit k pos x).Sized :=
  List.length_set.trans hsized

theorem lineReg_withBit {s : State} {k : Nat} (hk : k < s.line.length) (pos : Nat) (x : Bool) :
    (s.withBit k pos x).lineReg k = setBit pos x (s.lineReg k) := lineReg_of_set_self hk rfl

theorem withBit_of_getLsbD {s : State} {k pos : Nat} {x : Bool} (hpos : pos < 8)
    (h : (s.lineReg k).getLsbD pos = x) : s.withBit k pos x = s := by
  rw [State.withBit, setBit_of_getLsbD hpos h, set_lineReg_self]

/-- Enabling an ACTIVE line with GLOBAL_ENABLED set makes the formula true (R75). -/
theorem outputFormula_withBit_enabled {s : State} {k : Nat} (hsized : s.Sized) (hk : k < s.numLines)
    (hactive : (s.lineReg k).getLsbD 0 = true) (hon : s.status.getLsbD 0 = true) :
    (s.withBit k enabledPos true).outputFormula = true := by
  have hlength : s.line.length = s.numLines := hsized
  have hreg := lineReg_withBit (hlength ▸ hk) enabledPos true
  refine (outputFormula_iff _).mpr ⟨hon, k, hk, ?_, ?_⟩
  · rw [hreg, getLsbD_active_setBit_enabled, hactive]
  · rw [hreg]
    exact enabled_setBit_enabled true _

/-! ### The two shared effects -/

theorem toInt_toNat_of_nonneg {w : Word} (h : 0 ≤ w.toInt) : w.toInt.toNat = w.toNat := by
  rw [toInt_eq_toNat_of_nonneg h, Int.toNat_natCast]

section
variable {s : State} {w : Word}

theorem lineSignal_of_lt (hsized : s.Sized) (hw : w.toNat < s.numLines) (x : Bool) :
    lineSignal w x s = .next { (s.withBit w.toNat activePos x).aggregated with reply := .nothing } := by
  have hlength : s.line.length = s.numLines := hsized
  rw [← setReply_aggregate (withBit_sized hsized ..), lineSignal, lineIndex_of hw]
  simp only [writeLineBit_of_lt activePos x (hlength ▸ hw), ofBank_ok, State.withBit]

theorem lineSignal_of_le (hw : s.numLines ≤ w.toNat) (x : Bool) :
    lineSignal w x s = .next { s with fault := some (.contractViolation w.toNat), reply := .nothing } := by
  rw [lineSignal, lineIndex, if_neg (Nat.not_lt.mpr hw)]
  rfl

theorem manage_of_valid (hsized : s.Sized) (hnonneg : 0 ≤ w.toInt) (hlt : w.toInt < s.numLines) (pos : Nat)
    (x : Bool) : manage w pos x s = .next { (s.withBit w.toInt.toNat pos x).aggregated with reply := .ok } := by
  have hlength : s.line.length = s.numLines := hsized
  have hindex := toInt_toNat_of_nonneg hnonneg
  have hk : w.toNat < s.line.length := by omega
  rw [← setReply_aggregate (withBit_sized hsized ..), manage, managementIndex_of hnonneg hlt, hindex]
  simp only [writeLineBit_of_lt pos x hk, ofBank_ok, State.withBit]

theorem manage_of_invalid (h : ¬(0 ≤ w.toInt ∧ w.toInt < s.numLines)) (pos : Nat) (x : Bool) :
    manage w pos x s = .next { s with reply := .invalidArgument } := by
  rw [manage, managementIndex, if_neg h]
  rfl

/-- Writing a bit its own value again pushes the output once more and changes nothing else (R73). -/
theorem manage_again {pos : Nat} {x : Bool} (hsized : s.Sized) (hnonneg : 0 ≤ w.toInt) (hlt : w.toInt < s.numLines)
    (hpos : pos < 8) (hbit : (s.lineReg w.toInt.toNat).getLsbD pos = x) (hout : s.out = s.outputFormula)
    (hreply : s.reply = .ok) : manage w pos x s = .next { s with pushes := s.pushes ++ [s.out] } := by
  rw [manage_of_valid hsized hnonneg hlt, withBit_of_getLsbD hpos hbit, State.aggregated, ← hout, ← hreply]

end

/-! ### MMIO -/

section
variable {s : State} {size : Nat}

theorem exec_mmioWriteStatus (hserving : s.Serving) (hsize : IsSize size) (value : Word) :
    exec (.mmioWriteStatus size value) s =
      .next (setReply .nothing (aggregate (writeStatus (value &&& mask size) s))) := by
  rw [exec, execMmioWriteStatus, whenServed_of hserving, whenSized_of hsize, compose_eq_and_mask]

theorem exec_mmioWriteInvalid {offset : Word} (value : Word) (hserving : s.Serving) (hsize : IsSize size)
    (hoffset : (1 ≤ offset.toNat ∧ offset.toNat ≤ 3) ∨ s.numLines + 4 ≤ offset.toNat) :
    exec (.mmioWriteInvalid size offset value) s = .next { s with reply := .nothing } := by
  rw [exec, execMmioWriteInvalid, whenServed_of hserving, whenSized_of hsize, whenInvalidTarget_of hoffset, setReply]

end

/-- A word masked to `size` bytes, in the 32 bits of the status register. -/
theorem setWidth_and_mask_eq_extract (value : Word) (size : Nat) :
    (value &&& mask size).setWidth 32 = ((value.extractLsb' 0 (8 * size)).setWidth 32) := by
  refine BitVec.eq_of_getLsbD_eq fun j hj => ?_
  have hj64 : j < 64 := by omega
  rw [BitVec.getLsbD_setWidth, BitVec.getLsbD_and, getLsbD_mask, BitVec.getLsbD_setWidth, BitVec.getLsbD_extractLsb',
    decide_eq_true hj64, Bool.true_and, Nat.zero_add, Bool.and_comm (value.getLsbD j)]

/-! ### CREATE -/

theorem whenCreatable_of {s : State} (h : s.life = .none ∧ s.fault = none)
    (k : Host.Outcome State Fault Refusal) : whenCreatable s k = k := if_pos ((creatable_iff s).mpr h)

theorem lineCountAllowed_iff (n : Word) : lineCountAllowed n = true ↔ 1 ≤ n.toNat ∧ n.toNat + 4 ≤ 2 ^ 64 := by
  rw [lineCountAllowed, Bool.and_eq_true, decide_eq_true_iff, decide_eq_true_iff, Config.offsetSpace]

section
variable {s : State} {n : Word}

theorem exec_create (hcreatable : s.life = .none ∧ s.fault = none) (hallowed : lineCountAllowed n = true)
    (hallocate : s.canAllocate = true) : exec (.create n) s = .next (construct n.toNat s) := by
  rw [exec, execCreate, whenCreatable_of hcreatable, hallowed, hallocate]
  rfl

theorem exec_create_fails (hcreatable : s.life = .none ∧ s.fault = none)
    (hfails : ¬(lineCountAllowed n && s.canAllocate) = true) :
    exec (.create n) s = .next { s with fault := some .constructionFailure, reply := .nothing } := by
  rw [exec, execCreate, whenCreatable_of hcreatable, if_neg hfails]
  rfl

end

/-! ### The statements -/

/-- Settles O4: the composed value is the value masked to the size, and a closed gate makes the formula false. -/
theorem writeStatusReplacesRegister : Obligations.WriteStatusReplacesRegister := by
  unfold Obligations.WriteStatusReplacesRegister
  intro s size value hserving hsized hsize
  have hvalue := setWidth_and_mask_eq_extract value size
  refine ⟨(value &&& mask size).setWidth 32, ?_, ?_, ?_, ?_, ?_, fun hbit => ?_, hasHeader_of_mmioWrite rfl hsize⟩
  · rw [exec_mmioWriteStatus hserving hsize, setReply_aggregate (writeStatus_sized _ hsized), writeStatus]
  · rintro rfl
    exact hvalue
  · rintro rfl
    exact hvalue
  · rintro rfl
    exact hvalue.trans (BitVec.setWidth_eq _)
  · rintro rfl
    rw [mask_eight, BitVec.and_allOnes, BitVec.setWidth_eq_extractLsb' (by decide)]
  · refine outputFormula_of_gate_off ?_
    change ((value &&& mask size).setWidth 32).getLsbD 0 = false
    rw [BitVec.getLsbD_setWidth, BitVec.getLsbD_and, hbit, Bool.false_and, Bool.and_false]

/-- Settles O6: offsets 1, 2, 3 and those past the lines are the ones that decode to no register. -/
theorem writeInvalidChangesNothing : Obligations.WriteInvalidChangesNothing := by
  unfold Obligations.WriteInvalidChangesNothing
  intro s size offset value hserving hsize hoffset
  exact ⟨exec_mmioWriteInvalid value hserving hsize (by omega), hasHeader_of_mmioWrite rfl hsize⟩

/-- Settles O7, by the one bit that the signal writes. -/
theorem lineRaiseSetsActive : Obligations.LineRaiseSetsActive := by
  unfold Obligations.LineRaiseSetsActive
  intro s w hserving hsized hw
  rw [← setBit_active_true]
  refine ⟨(whenServed_of hserving _).trans (lineSignal_of_lt hsized hw true), fun hbit => ?_, bytesOfWord 8 w, rfl⟩
  exact congrArg State.line (withBit_of_getLsbD (by decide) hbit)

/-- Settles O8, by the one bit that the signal writes. -/
theorem lineLowerClearsActive : Obligations.LineLowerClearsActive := by
  unfold Obligations.LineLowerClearsActive
  intro s w hserving hsized hw
  rw [← setBit_active_false]
  refine ⟨(whenServed_of hserving _).trans (lineSignal_of_lt hsized hw false), fun hbit => ?_, bytesOfWord 8 w, rfl⟩
  exact congrArg State.line (withBit_of_getLsbD (by decide) hbit)

/-- Settles O9: the write of ACTIVE is the one of LINE_RAISE, and a second one finds the bit as it writes it. -/
theorem setLineSetsActive : Obligations.SetLineSetsActive := by
  unfold Obligations.SetLineSetsActive
  intro s w hserving hsized
  refine ⟨fun hnonneg hlt => ⟨_, rfl, ?_⟩, fun hinvalid => ?_, bytesOfWord 8 w, rfl⟩
  · rw [← setBit_active_true]
    have hlength : s.line.length = s.numLines := hsized
    have hindex := toInt_toNat_of_nonneg hnonneg
    have hk : w.toInt.toNat < s.line.length := by omega
    refine ⟨(whenServed_of hserving _).trans (manage_of_valid hsized hnonneg hlt activePos true), ?_, ?_⟩
    · rw [hindex]
      exact (whenServed_of hserving _).trans (lineSignal_of_lt hsized (by omega) true)
    · refine (whenServed_of hserving _).trans (manage_again (withBit_sized hsized _ activePos true) hnonneg hlt
        (by decide) ?_ (outputFormula_congr rfl rfl rfl) rfl)
      exact (congrArg (BitVec.getLsbD · 0) (lineReg_withBit hk activePos true)).trans (active_setBit_active true _)
  · exact (whenServed_of hserving _).trans (manage_of_invalid hinvalid activePos true)

/-- Settles O10: the write of ACTIVE is the one of LINE_LOWER. -/
theorem clearLineClearsActive : Obligations.ClearLineClearsActive := by
  unfold Obligations.ClearLineClearsActive
  intro s w hserving hsized
  refine ⟨fun hnonneg hlt => ⟨_, rfl, ?_⟩, fun hinvalid => ?_, bytesOfWord 8 w, rfl⟩
  · rw [← setBit_active_false]
    have hindex := toInt_toNat_of_nonneg hnonneg
    refine ⟨(whenServed_of hserving _).trans (manage_of_valid hsized hnonneg hlt activePos false), ?_⟩
    rw [hindex]
    exact (whenServed_of hserving _).trans (lineSignal_of_lt hsized (by omega) false)
  · exact (whenServed_of hserving _).trans (manage_of_invalid hinvalid activePos false)

theorem exec_enableLine_of_active {s : State} {w : Word} (hserving : s.Serving) (hsized : s.Sized)
    (hnonneg : 0 ≤ w.toInt) (hlt : w.toInt < s.numLines) (hactive : (s.lineReg w.toInt.toNat).getLsbD 0 = true)
    (hon : s.status.getLsbD 0 = true) : ∃ u, exec (.enableLine w) s = .next u ∧ u.out = true :=
  ⟨_, (whenServed_of hserving _).trans (manage_of_valid hsized hnonneg hlt enabledPos true),
    outputFormula_withBit_enabled hsized (by omega) hactive hon⟩

/-- Settles O11, by the one bit that the request writes. -/
theorem enableLineSetsEnabled : Obligations.EnableLineSetsEnabled := by
  unfold Obligations.EnableLineSetsEnabled
  intro s w hserving hsized
  refine ⟨fun hnonneg hlt => ⟨_, rfl, ?_⟩, fun hinvalid => ?_, bytesOfWord 8 w, rfl⟩
  · rw [← setBit_enabled_true]
    exact ⟨(whenServed_of hserving _).trans (manage_of_valid hsized hnonneg hlt enabledPos true),
      outputFormula_withBit_enabled hsized (by omega)⟩
  · exact (whenServed_of hserving _).trans (manage_of_invalid hinvalid enabledPos true)

/-- Settles O12: DISABLE_LINE leaves ACTIVE, so the ENABLE_LINE after it finds the line ACTIVE. -/
theorem disableLineClearsEnabled : Obligations.DisableLineClearsEnabled := by
  unfold Obligations.DisableLineClearsEnabled
  intro s w hserving hsized
  refine ⟨fun hnonneg hlt => ⟨_, rfl, ?_⟩, fun hinvalid => ?_, bytesOfWord 8 w, rfl⟩
  · rw [← setBit_enabled_false]
    refine ⟨(whenServed_of hserving _).trans (manage_of_valid hsized hnonneg hlt enabledPos false),
      fun hactive hon => ?_⟩
    have hlength : s.line.length = s.numLines := hsized
    have hk : w.toInt.toNat < s.line.length := by omega
    have hbit := congrArg (BitVec.getLsbD · 0) (lineReg_withBit hk enabledPos false)
    exact exec_enableLine_of_active hserving (withBit_sized hsized _ enabledPos false) hnonneg hlt
      (hbit.trans ((getLsbD_active_setBit_enabled false _).trans hactive)) hon
  · exact (whenServed_of hserving _).trans (manage_of_invalid hinvalid enabledPos false)

/-- Settles O13, by the equation of a CREATE that succeeds. -/
theorem createMakesZeroBlock : Obligations.CreateMakesZeroBlock := by
  unfold Obligations.CreateMakesZeroBlock
  intro s n hnone hfault hlow hhigh hallocate
  have hallowed := (lineCountAllowed_iff n).mpr ⟨hlow, hhigh⟩
  exact ⟨exec_create ⟨hnone, hfault⟩ hallowed hallocate, bytesOfWord 8 n, rfl⟩

/-- Settles O14: each of the three causes fails the check of CREATE, and the fault then forbids every request. -/
theorem failedConstructionIsFinal : Obligations.FailedConstructionIsFinal := by
  unfold Obligations.FailedConstructionIsFinal
  intro s n hnone hfault hcause
  refine ⟨exec_create_fails ⟨hnone, hfault⟩ fun hpass => ?_, exec_of_fault (by simp)⟩
  obtain ⟨hallowed, hallocate⟩ := Bool.and_eq_true_iff.mp hpass
  obtain ⟨hlow, hhigh⟩ := (lineCountAllowed_iff n).mp hallowed
  obtain hzero | hlarge | hstarved := hcause
  · omega
  · omega
  · cases hallocate.symm.trans hstarved

/-- Settles O15: a destroyed block neither serves nor can be created. -/
theorem destroyEndsLife : Obligations.DestroyEndsLife := by
  unfold Obligations.DestroyEndsLife
  intro s hserving
  exact ⟨whenServed_of hserving _, exec_of_no_life (by simp) (by simp), [], rfl⟩

/-- Settles O16: an index of no line is recorded as a fault, and the fault forbids every request. -/
theorem contractViolationIsKept : Obligations.ContractViolationIsKept := by
  unfold Obligations.ContractViolationIsKept
  intro s w hserving hw
  exact ⟨(whenServed_of hserving _).trans (lineSignal_of_le hw true),
    (whenServed_of hserving _).trans (lineSignal_of_le hw false), exec_of_fault (by simp)⟩

/-- Settles O50: the state after reset is by its fields the construction of 64 lines. -/
theorem resetIsTheCreatedBlock : Obligations.ResetIsTheCreatedBlock := by
  unfold Obligations.ResetIsTheCreatedBlock
  exact ⟨rfl, rfl, rfl, rfl, rfl, rfl, rfl, fun s hnone hfault hallocate =>
    exec_create ⟨hnone, hfault⟩ (by decide) hallocate⟩

/-- Settles O25: a well-formed request answers a next state, and its effect records a fault only for a line signal to
no line. -/
theorem wellFormedRequestsComplete : Obligations.WellFormedRequestsComplete := by
  unfold Obligations.WellFormedRequestsComplete
  intro s i hserving hsized hwf hcreate
  obtain ⟨t, hexec⟩ := exec_completes hserving hsized hwf hcreate
  refine ⟨t, hexec, fun hline => ?_, fun w hi hw => ?_⟩
  · obtain ⟨-, hfault⟩ := hserving
    cases effect_of_exec hexec with
    | aggregated r _ hruns hwrite => exact hwrite.fault_eq.trans hfault
    | replied | destroyed => exact hfault
    | violated hi _ hw => exact absurd (hline _ hi) (Nat.not_lt.mpr hw)
    | created | constructionFailed => exact absurd rfl (hcreate _)
  · obtain ⟨hraise, hlower, -⟩ := contractViolationIsKept s w hserving hw
    obtain rfl | rfl := hi
    · cases hraise.symm.trans hexec
      rfl
    · cases hlower.symm.trans hexec
      rfl

end Sys2Proof.Machine
end

section
/-! SUPPORT. The bus and the arrivals (spec 20_memory.md R29, R32; 30_encoding.md R42 to R49; 43_line_signal.md R72):
the lanes of a datum in either byte order, what is written and read back, and which instruction a step runs. -/

namespace Sys2Proof.Machine

/-! ### The lanes of a datum -/

theorem length_busLanes (order : Config.ByteOrder) (size : Nat) (v : Word) : (busLanes order size v).length = size := by
  cases order with
  | little => exact Laws.length_bytesOfWord size v
  | big => exact (List.length_reverse).trans (Laws.length_bytesOfWord size v)

theorem getElem?_busLanes (order : Config.ByteOrder) {size k : Nat} (v : Word) (hk : k < size) :
    (busLanes order size v)[k]? = some (byteAt v (byteOfLane order size k)) := by
  cases order with
  | little => exact getElem?_bytesOfWord v hk
  | big =>
    have hlength := Laws.length_bytesOfWord size v
    rw [busLanes, List.getElem?_reverse (by omega), hlength]
    exact getElem?_bytesOfWord v (by omega)

theorem busValue_busLanes (order : Config.ByteOrder) (size : Nat) (v : Word) :
    busValue order (busLanes order size v) = v &&& mask size := by
  cases order with
  | little => exact wordOfBytes_bytesOfWord size v
  | big =>
    rw [busLanes, busValue, List.reverse_reverse]
    exact wordOfBytes_bytesOfWord size v

theorem byteOfLane_lt (order : Config.ByteOrder) {size k : Nat} (hk : k < size) : byteOfLane order size k < size := by
  cases order with
  | little => exact hk
  | big => exact Nat.lt_of_le_of_lt (Nat.sub_le ..) (by omega)

/-- The bytes below the size of an access are those of the datum before the mask (R61). -/
theorem byteAt_and_mask {size k : Nat} (v : Word) (hk : k < size) : byteAt (v &&& mask size) k = byteAt v k := by
  rw [← compose_eq_and_mask, byteAt_compose v hk]

/-- A line register shows in byte 0 of a read, with zeros above it (R62, D7). -/
theorem byteAt_setWidth (b : Byte) (k : Nat) : byteAt (b.setWidth 64) k = if k = 0 then b else 0 := by
  refine BitVec.eq_of_getLsbD_eq fun j hj => ?_
  rw [byteAt, BitVec.getLsbD_extractLsb', BitVec.getLsbD_setWidth, decide_eq_true hj, Bool.true_and]
  split
  · subst k
    rw [Nat.mul_zero, Nat.zero_add, decide_eq_true (Nat.lt_trans hj (by decide)), Bool.true_and]
  · rw [BitVec.getLsbD_of_ge b _ (by omega), Bool.and_false]
    exact (BitVec.getLsbD_zero).symm

theorem busLanes_zero (order : Config.ByteOrder) (size : Nat) : busLanes order size 0 = List.replicate size 0 := by
  refine List.ext_getElem? fun k => ?_
  by_cases hk : k < size
  · rw [getElem?_busLanes order 0 hk, List.getElem?_replicate_of_lt hk]
    simp [byteAt]
  · rw [List.getElem?_eq_none (by rw [length_busLanes]; omega),
      List.getElem?_eq_none (by rw [List.length_replicate]; omega)]

/-! ### The arrivals -/

theorem putBack_eq (tail : List Byte) (rest : List Arrival) :
    putBack tail rest = if tail = [] then rest else .bytes tail :: rest := by
  cases tail <;> rfl

theorem fetchRequest_of_ok {n : Nat} {i : Instr} {r : Request} (rest : List Arrival) (h : classify n r = .ok i) :
    fetchRequest n r rest = .run i rest := by
  simp only [fetchRequest, h]

theorem fetchRequest_of_error {n : Nat} {r : Request} {e : DecodeError} (rest : List Arrival)
    (h : classify n r = .error e) :
    fetchRequest n r rest = .rejected e := by
  simp only [fetchRequest, h]

theorem step_of_call {s : State} {r : Request} {i : Instr} {rest : List Arrival} (hinbox : s.inbox = .call r :: rest)
    (h : classify s.numLines r = .ok i) : step s = exec i { s with inbox := rest } :=
  step_of_run (hinbox ▸ fetchRequest_of_ok rest h)

theorem step_of_call_error {s : State} {r : Request} {e : DecodeError} {rest : List Arrival}
    (hinbox : s.inbox = .call r :: rest) (h : classify s.numLines r = .error e) :
    step s = .refused (refusalOf e s) :=
  step_of_rejected (hinbox ▸ fetchRequest_of_error rest h)

/-! ### What is written is read back -/

theorem setWidth_setWidth_eq_and_mask (v : Word) (size : Nat) :
    (v.setWidth (8 * size)).setWidth 64 = v &&& mask size := by
  rw [← setWidth_and_mask, BitVec.setWidth_eq]

/-- The status register takes the low 32 bits of a value, and a read of the width of the write masks them as it did. -/
theorem status_read_back (v : Word) (size : Nat) :
    ((v &&& mask size).setWidth 32).setWidth 64 &&& mask size = v &&& mask size &&& 0xFFFFFFFF#64 := by
  have hlow : ((v &&& mask size).setWidth 32).setWidth 64 = v &&& mask size &&& 0xFFFFFFFF#64 :=
    setWidth_setWidth_eq_and_mask _ 4
  rw [hlow, BitVec.and_assoc (v &&& mask size), BitVec.and_comm 0xFFFFFFFF#64, ← BitVec.and_assoc,
    BitVec.and_assoc v, BitVec.and_self]

theorem lowByte_read_back (v : Word) : (v.extractLsb' 0 8).setWidth 64 = v &&& 0xFF#64 := by
  rw [← BitVec.setWidth_eq_extractLsb' (by decide)]
  exact setWidth_setWidth_eq_and_mask v 1

/-! ### The statements -/

/-- Settles O30, by the bytes of a word and their reversal. -/
theorem busLanesRoundTrip : Obligations.BusLanesRoundTrip := by
  unfold Obligations.BusLanesRoundTrip
  intro value size hsize
  exact ⟨fun order => ⟨length_busLanes order size value, busValue_busLanes order size value⟩, fun k hk =>
    ⟨getElem?_busLanes .little value hk, getElem?_busLanes .big value hk⟩⟩

/-- Settles O55, by the lanes of the datum that each read returns. -/
theorem readsLieOnTheBusInItsOrder : Obligations.ReadsLieOnTheBusInItsOrder := by
  unfold Obligations.ReadsLieOnTheBusInItsOrder
  intro s size offset hserving hsized hsize
  refine ⟨?status, fun hlow hhigh => ?line, fun hoffset => ?invalid⟩
  case status =>
    refine ⟨_, _, exec_mmioReadStatus hserving hsized hsize, replyLanes_of_data size _ _, length_busLanes ..,
      fun k hk => ?_⟩
    rw [getElem?_busLanes _ _ hk, byteAt_and_mask _ (byteOfLane_lt _ hk)]
    rfl
  case line =>
    refine ⟨_, _, exec_mmioReadLine hserving hsized hsize hlow hhigh, replyLanes_of_data size _ _,
      length_busLanes .., fun k hk => ?_⟩
    rw [getElem?_busLanes _ _ hk, byteAt_setWidth]
    rfl
  case invalid =>
    refine ⟨_, exec_mmioReadInvalid hserving hsize (by omega), ?_⟩
    rw [replyLanes_of_data, busLanes_zero]

/-- Settles O48: the register holds the low 32 bits of the masked value, and the read masks them again. -/
theorem statusRoundTrip : Obligations.StatusRoundTrip := by
  unfold Obligations.StatusRoundTrip
  intro s size value hserving hsize
  refine ⟨_, _, exec_mmioWriteStatus hserving hsize value,
    (whenServed_of hserving _).trans (whenSized_of hsize _), congrArg Reply.data (status_read_back value size)⟩

/-- Settles O49: the read finds the one byte that the write stored. -/
theorem lineRoundTrip : Obligations.LineRoundTrip := by
  unfold Obligations.LineRoundTrip
  intro s size size' offset value hserving hsized hsize hsize' hlow hhigh
  have hk := lineOffset_lt_length hsized hlow hhigh
  have hsized' : (s.line.set (offset.toNat - 4) (value.extractLsb' 0 8)).length = s.numLines :=
    List.length_set.trans hsized
  refine ⟨_, _, exec_mmioWriteLine value hserving hsized hsize hlow hhigh,
    exec_mmioReadLine hserving hsized' hsize' hlow hhigh, congrArg Reply.data ?_⟩
  rw [lineReg_of_set_self hk rfl, lowByte_read_back]

/-- Settles O20: the address decode gives a line signal of one bit its row and refuses every other level. -/
theorem lineSignalLevelIsOneBit : Obligations.LineSignalLevelIsOneBit := by
  unfold Obligations.LineSignalLevelIsOneBit
  intro s w lv rest hserving hinbox
  refine ⟨fun hne0 hne1 => ?_, ?_, ?_⟩
  · have hclassify : classify s.numLines (.lineSignal w lv) = .error (.badLevel lv) := by
      rw [classify, if_neg hne1, if_neg hne0]
    rw [step_of_call_error hinbox hclassify, refusalOf, if_pos ((served_iff s).mpr hserving)]
  · rintro rfl
    exact step_of_call hinbox rfl
  · rintro rfl
    exact step_of_call hinbox rfl

/-- Settles O21: the fetch names the overlap, and the step refuses it. -/
theorem overlapIsRefused : Obligations.OverlapIsRefused := by
  unfold Obligations.OverlapIsRefused
  intro s a b rest hinbox
  simp only [step, hinbox, fetch]

/-- Settles O26, by what the fetch answers for each form of arrival. -/
theorem stepRunsTheNextRequest : Obligations.StepRunsTheNextRequest := by
  unfold Obligations.StepRunsTheNextRequest
  refine fun s rest => ⟨fun b bs tail i hinbox hdecode => ?_, fun r i => step_of_call,
    fun offset lanes i hinbox hclassify => ?_⟩
  · rw [← putBack_eq]
    exact step_of_run (hinbox ▸ fetch_of_decode_ok rest hdecode)
  · exact step_of_run (hinbox ▸ fetchRequest_of_ok rest hclassify)

/-- Settles O27: an empty list of arrivals is idle. -/
theorem noRequestChangesNothing : Obligations.NoRequestChangesNothing := by
  unfold Obligations.NoRequestChangesNothing
  intro s hinbox
  simp only [step, hinbox, fetch]

/-- Settles O31, by decoding each word. -/
theorem programWordsDecode : Obligations.ProgramWordsDecode := by
  unfold Obligations.ProgramWordsDecode
  exact ⟨by decide, by decide, by decide, by decide, by decide, by decide, by decide⟩

end Sys2Proof.Machine
end
